-- ==== Sys2Proof/Word.lean ====
section
/-! DEFINITION. The word types of the block (spec 00_scope.md R7, R8): unsigned bit vectors of the widths the spec
documents. Nothing here computes; every slice, extension and byte order is in `Decode.lean` and `Machine/`. -/

namespace Sys2Proof

/-- `bits8` (R8): a frame byte, a payload half. -/
abbrev Bits8 := BitVec 8

/-- `bits16` (R8): the payload. -/
abbrev Bits16 := BitVec 16

/-- A frame word (R60), a descriptor word (R65) or an entry word (R68). -/
abbrev Word32 := BitVec 32

/-- `MT3` (R64): a message-type code, 0..7 (R62). -/
abbrev MT3 := BitVec 3

/-- A data identifier, 0..255 (R60). -/
abbrev DataId := BitVec 8

/-- `NameIdx` (R64): an index into `NAME`, 10 bits (R25). -/
abbrev NameIdx := BitVec 10

end Sys2Proof
end

