-- ==== Sys2Proof/Config.lean ====
section
/-! DEFINITION. What an implementation fixes (spec 00_scope.md R6): the parameters as plain data, and the one value the
spec leaves without a law (93 I5). The parameters stand in State, so a statement over all states holds for every setting. -/

namespace Sys2Proof

/-- `F88_NEG_MODE` (R6, R147, D10). -/
inductive F88NegMode where
  | twosComplement
  | invertHbPlusFraction
  deriving DecidableEq, Repr

/-- `F88_TIE` (R6, R148, D11). -/
inductive F88Tie where
  | halfAwayFromZero
  | halfTowardPosInf
  deriving DecidableEq, Repr

/-- `DT_GUARD` (R6, R150, R152, D12, D13). -/
inductive DtGuard where
  | rangeCheck
  | alwaysRender
  deriving DecidableEq, Repr

/-- The named parameters of R6. `CATALOG` is the ROM of State; `MAX_NAMES` is the length of its `NAME` table (R6; log 3). -/
structure Params where
  /-- `F88_NEG_MODE` -/
  negMode : F88NegMode
  /-- `F88_TIE` -/
  tie : F88Tie
  /-- `DT_GUARD` -/
  guard : DtGuard
  /-- `REJECT_NAME_COLLISION` -/
  rejectCollision : Bool
  /-- `MAX_DESC` -/
  maxDesc : Nat
  /-- `LATENCY`: no rule of the model reads it (R235). -/
  latency : Nat
  deriving DecidableEq, Repr

/-- The defaults of R6. `MAX_DESC` and `LATENCY` are OPEN in the spec: 31 (the cap of the entry word, D19) and 0 are the
model's DESIGN CHOICE (log 4). -/
def Params.default : Params where
  negMode := .twosComplement
  tie := .halfAwayFromZero
  guard := .rangeCheck
  rejectCollision := false
  maxDesc := 31
  latency := 0

/-- The range D19 gives `MAX_DESC`: at least 4 (K1), at most 31 (the 5-bit `N`). -/
def Params.legal (p : Params) : Bool := 4 ≤ p.maxDesc && p.maxDesc ≤ 31

/-- FREE VALUE (log 11): the month name rendered for `month >= 13` under `ALWAYS_RENDER`, "any value: a draw, with no
law" (93 I5, D13). The first argument numbers the draw, the second is the month. -/
opaque Config.unspecifiedMonthName : Nat → Bits8 → String

end Sys2Proof
end

