-- ==== Sys2Proof/Syntax.lean ====
section
/-! DEFINITION. The instructions: the ten descriptor kinds of spec/opcode_table.json, and the abstract descriptor of
30_encoding.md R64 from which the binary words are packed. -/

namespace Sys2Proof

/-- A message-type filter (R64): absent, or exactly one message type (C1). -/
abbrev Filter := Option MT3

/-- `Sel` (R64, R67): the span of the payload a descriptor reads. -/
inductive Sel where
  | full
  | high
  | low
  deriving DecidableEq, Repr

/-- The selectors legal for an 8-bit kind (R66, check W3). -/
inductive Half where
  | high
  | low
  deriving DecidableEq, Repr

def Half.toSel : Half → Sel
  | .high => .high
  | .low => .low

/-- `Kind` (R64, R66): the converter a descriptor selects. -/
inductive Kind where
  | flag
  | u8
  | s8
  | u16
  | s16
  | f88
  | daytime
  | date
  | year
  | vendorSvc
  deriving DecidableEq, Repr

/-- `Desc` (R64): the abstract field descriptor. It can express descriptors the load check refuses (a selector of the
wrong width, a bit index on another kind); `Instr` cannot. -/
structure Desc where
  filter : Filter
  sel : Sel
  kind : Kind
  bit : Option (BitVec 3)
  name : NameIdx
  deriving DecidableEq, Repr

/-- One constructor per row of spec/opcode_table.json. The width pairing W3 is in the types: a byte kind carries a half,
a word kind reads the whole payload. Operands: filter (R112), half (R67), bit index (R132), property name (R114). -/
inductive Instr where
  | flag (filter : Filter) (half : Half) (bit : BitVec 3) (name : NameIdx)
  | u8 (filter : Filter) (half : Half) (name : NameIdx)
  | s8 (filter : Filter) (half : Half) (name : NameIdx)
  | u16 (filter : Filter) (name : NameIdx)
  | s16 (filter : Filter) (name : NameIdx)
  | f88 (filter : Filter) (name : NameIdx)
  | daytime (filter : Filter) (name : NameIdx)
  | date (filter : Filter) (name : NameIdx)
  | year (filter : Filter) (name : NameIdx)
  | svc (filter : Filter) (name : NameIdx)
  deriving DecidableEq, Repr

/-- The abstract descriptor an instruction stands for (R64, R65). -/
def Instr.toDesc : Instr → Desc
  | .flag f h b n => ⟨f, h.toSel, .flag, some b, n⟩
  | .u8 f h n => ⟨f, h.toSel, .u8, none, n⟩
  | .s8 f h n => ⟨f, h.toSel, .s8, none, n⟩
  | .u16 f n => ⟨f, .full, .u16, none, n⟩
  | .s16 f n => ⟨f, .full, .s16, none, n⟩
  | .f88 f n => ⟨f, .full, .f88, none, n⟩
  | .daytime f n => ⟨f, .full, .daytime, none, n⟩
  | .date f n => ⟨f, .full, .date, none, n⟩
  | .year f n => ⟨f, .full, .year, none, n⟩
  | .svc f n => ⟨f, .full, .vendorSvc, none, n⟩

/-- The filter operand. -/
def Instr.filter (i : Instr) : Filter := i.toDesc.filter

/-- The property-name operand. -/
def Instr.name (i : Instr) : NameIdx := i.toDesc.name

end Sys2Proof
end

