-- ==== Sys2Proof/WellFormed.lean ====
section
/-! DEFINITION. The named checks W1-W9 of the catalog load check (30_encoding.md R69), and those of them that concern an
abstract descriptor (R64): W3, W4, W7. W1, W2, W5, W6 concern the binary word and are made by `decode`; W8 and W9 concern
a whole catalog and are made in `Machine/LoadCheck.lean`. -/

namespace Sys2Proof

/-- The checks of R69, by name. -/
inductive Check where
  /-- `KIND <= 9` -/
  | w1
  /-- `SEL != 3` -/
  | w2
  /-- width pairing of `KIND` and `SEL` -/
  | w3
  /-- `BIT` only with `FLAG` -/
  | w4
  /-- `FMT = 0` where `FV = 0` -/
  | w5
  /-- reserved fields zero -/
  | w6
  /-- `NAME < MAX_NAMES` -/
  | w7
  /-- the entry word -/
  | w8
  /-- name collision, only under `REJECT_NAME_COLLISION` -/
  | w9
  deriving DecidableEq, Repr

/-- Whether a kind reads 8 bits (R66). -/
def Kind.isByte : Kind → Bool
  | .flag | .u8 | .s8 => true
  | .u16 | .s16 | .f88 | .daytime | .date | .year | .vendorSvc => false

/-- W3: the byte kinds take HIGH or LOW, every other kind FULL. -/
def widthPaired (k : Kind) (s : Sel) : Bool :=
  if k.isByte then s != .full else s == .full

/-- W4, abstract form: a bit index is present exactly when the kind is FLAG. -/
def Desc.bitPaired (d : Desc) : Bool := (d.kind == .flag) == d.bit.isSome

/-- The first check of W3, W4, W7 that an abstract descriptor fails, given `MAX_NAMES`. -/
def Desc.failing (maxNames : Nat) (d : Desc) : Option Check :=
  if !widthPaired d.kind d.sel then some .w3
  else if !d.bitPaired then some .w4
  else if maxNames ≤ d.name.toNat then some .w7
  else none

/-- An instruction is well formed for a `NAME` table of `maxNames` strings (W3 and W4 hold of every instruction). -/
def Instr.wellFormed (maxNames : Nat) (i : Instr) : Bool := (i.toDesc.failing maxNames).isNone

/-- The instruction an abstract descriptor denotes; none where it fails W3 or W4. -/
def Desc.toInstr (d : Desc) : Option Instr :=
  match d.kind, d.sel, d.bit with
  | .flag, .high, some b => some (.flag d.filter .high b d.name)
  | .flag, .low, some b => some (.flag d.filter .low b d.name)
  | .u8, .high, none => some (.u8 d.filter .high d.name)
  | .u8, .low, none => some (.u8 d.filter .low d.name)
  | .s8, .high, none => some (.s8 d.filter .high d.name)
  | .s8, .low, none => some (.s8 d.filter .low d.name)
  | .u16, .full, none => some (.u16 d.filter d.name)
  | .s16, .full, none => some (.s16 d.filter d.name)
  | .f88, .full, none => some (.f88 d.filter d.name)
  | .daytime, .full, none => some (.daytime d.filter d.name)
  | .date, .full, none => some (.date d.filter d.name)
  | .year, .full, none => some (.year d.filter d.name)
  | .vendorSvc, .full, none => some (.svc d.filter d.name)
  | _, _, _ => none

end Sys2Proof
end

