-- ==== Sys2Proof/Decode.lean ====
section
/-! DEFINITION. The descriptor word (30_encoding.md R65-R67): its fields, the decoder (total on every 32-bit word,
rejecting by the name of the check of R69 that fails), and the encoder. -/

namespace Sys2Proof

/-! ## Fields of `DW` (R65) -/

/-- `KIND`, bits 3:0. -/
def kindField (w : Word32) : BitVec 4 := w.extractLsb' 0 4

/-- `SEL`, bits 5:4. -/
def selField (w : Word32) : BitVec 2 := w.extractLsb' 4 2

/-- `BIT`, bits 8:6. -/
def bitField (w : Word32) : BitVec 3 := w.extractLsb' 6 3

/-- `FV`, bit 9. -/
def fvField (w : Word32) : BitVec 1 := w.extractLsb' 9 1

/-- `FMT`, bits 12:10. -/
def fmtField (w : Word32) : BitVec 3 := w.extractLsb' 10 3

/-- `RSV0`, bits 15:13. -/
def rsv0Field (w : Word32) : BitVec 3 := w.extractLsb' 13 3

/-- `NAME`, bits 25:16. -/
def nameField (w : Word32) : NameIdx := w.extractLsb' 16 10

/-- `RSV1`, bits 31:26. -/
def rsv1Field (w : Word32) : BitVec 6 := w.extractLsb' 26 6

/-- `KIND` codes (R66); 10-15 are reserved. -/
def kindOfCode (c : BitVec 4) : Option Kind :=
  match c.toNat with
  | 0 => some .flag
  | 1 => some .u8
  | 2 => some .s8
  | 3 => some .u16
  | 4 => some .s16
  | 5 => some .f88
  | 6 => some .daytime
  | 7 => some .date
  | 8 => some .year
  | 9 => some .vendorSvc
  | _ => none

/-- `SEL` codes (R67); 3 is reserved. -/
def selOfCode (c : BitVec 2) : Option Sel :=
  match c.toNat with
  | 0 => some .full
  | 1 => some .high
  | 2 => some .low
  | _ => none

/-- The filter of a word (R65): present exactly when `FV = 1`. -/
def filterOf (w : Word32) : Filter := if fvField w = 1#1 then some (fmtField w) else none

/-- The bit index of a word, read only for FLAG (R65, R132). -/
def bitOf (k : Kind) (w : Word32) : Option (BitVec 3) := if k = .flag then some (bitField w) else none

/-! ## The decoder -/

/-- W3 to W6 (R69), in order, on a word whose kind and selector are legal and whose fields denote `o`. -/
def checkFields (k : Kind) (w : Word32) (o : Option Instr) : Except Check Instr :=
  match o with
  | none => .error .w3
  | some i =>
    if k ≠ .flag ∧ bitField w ≠ 0#3 then .error .w4
    else if fvField w = 0#1 ∧ fmtField w ≠ 0#3 then .error .w5
    else if rsv0Field w ≠ 0#3 ∨ rsv1Field w ≠ 0#6 then .error .w6
    else .ok i

/-- The abstract descriptor of a word with a legal kind and selector (R65). -/
def wordDesc (k : Kind) (s : Sel) (w : Word32) : Desc := ⟨filterOf w, s, k, bitOf k w, nameField w⟩

/-- The instruction a descriptor word stands for, or the first of the checks W1-W6 (R69) that the word fails. -/
def decode (w : Word32) : Except Check Instr :=
  match kindOfCode (kindField w), selOfCode (selField w) with
  | none, _ => .error .w1
  | some _, none => .error .w2
  | some k, some s => checkFields k w (wordDesc k s w).toInstr

/-! ## The encoder -/

/-- A descriptor word from its eight fields, each at its place (R65). -/
def packDesc (kind : BitVec 4) (sel : BitVec 2) (bit : BitVec 3) (fv : BitVec 1) (fmt rsv0 : BitVec 3)
    (name : NameIdx) (rsv1 : BitVec 6) : Word32 :=
  BitVec.ofNat 32 (kind.toNat + sel.toNat * 2 ^ 4 + bit.toNat * 2 ^ 6 + fv.toNat * 2 ^ 9 + fmt.toNat * 2 ^ 10 +
    rsv0.toNat * 2 ^ 13 + name.toNat * 2 ^ 16 + rsv1.toNat * 2 ^ 26)

/-- `KIND` code of a kind (R66). -/
def Kind.code : Kind → BitVec 4
  | .flag => 0
  | .u8 => 1
  | .s8 => 2
  | .u16 => 3
  | .s16 => 4
  | .f88 => 5
  | .daytime => 6
  | .date => 7
  | .year => 8
  | .vendorSvc => 9

/-- `SEL` code of a selector (R67). -/
def Sel.code : Sel → BitVec 2
  | .full => 0
  | .high => 1
  | .low => 2

/-- `FV` of a filter (R65). -/
def fvOf : Filter → BitVec 1
  | none => 0
  | some _ => 1

/-- `FMT` of a filter (R65): 0 where there is none. -/
def fmtOf : Filter → BitVec 3
  | none => 0
  | some m => m

/-- The ROM word of an abstract descriptor (R65), reserved fields zero. -/
def Desc.word (d : Desc) : Word32 :=
  packDesc d.kind.code d.sel.code (d.bit.getD 0) (fvOf d.filter) (fmtOf d.filter) 0 d.name 0

/-- The word of an instruction. -/
def encode (i : Instr) : Word32 := i.toDesc.word

/-- The host's entry: the instruction the decoder reads from a word of `nbits` bits (every row of the table has 32); bits
above `nbits` are 0. -/
def decodeTableWord (nbits w : Nat) : Option Instr :=
  match decode (BitVec.ofNat 32 (w % 2 ^ nbits)) with
  | .ok i => some i
  | .error _ => none

end Sys2Proof
end

