-- ==== Sys2Proof/Machine/State.lean ====
section
/-! DEFINITION. The state of the block as plain data (10_state.md): the catalog ROM, the parameters, the signals of the
transaction in progress, the output register, and the model's own input port and draw counter. -/

namespace Sys2Proof.Machine

/-! ## The catalog ROM (R25, R40) -/

/-- The catalog ROM, the block's only store (R25, R40). `entry` lists (identifier, entry word) for the slots that are not
zero; an unlisted identifier reads 0x00000000, the word of an absent one (R68, R73). `desc`, `name`, `descr` are dense. -/
structure Memory where
  entry : List (Nat × Word32)
  desc : List Word32
  name : List String
  descr : List String
  deriving DecidableEq, Repr

/-- `MAX_NAMES` (R6): "the number of property-name strings in the catalog's name table" (log 3). -/
def Memory.maxNames (m : Memory) : Nat := m.name.length

/-- What an unlisted identifier reads (R68: `PRESENT = 0` requires `EW = 0`; R73: "every identifier not written gets
`ENTRY[id] = 0`"). -/
def unlistedEntry : Word32 := 0#32

/-- Slots strictly rising, above `lo`, below 256, and none that reads as an unlisted one does. -/
def entriesFrom : Nat → List (Nat × Word32) → Bool
  | _, [] => true
  | lo, (a, w) :: rest => lo ≤ a && a < 256 && w != unlistedEntry && entriesFrom (a + 1) rest

/-- The ROM is in canonical form: equal contents are equal data. -/
def Memory.wf (m : Memory) : Bool := entriesFrom 0 m.entry

/-- The entry record of a present identifier (R25, R68). -/
structure EntryRec where
  /-- index of the description in `DESCR` -/
  descr : BitVec 10
  /-- index in `DESC` of the first descriptor -/
  base : BitVec 16
  /-- number of descriptors -/
  n : BitVec 5
  deriving DecidableEq, Repr

/-! ## Values and results (44_output_rendering.md) -/

/-- The vendor service codes (R154, R186). -/
inductive Service where
  | none
  | typeA
  | typeB
  | typeC
  | unknown
  deriving DecidableEq, Repr

/-- The tagged value (R180). Tags 6 and 7 are never produced and have no constructor (I13). -/
inductive Value where
  | bool (b : Bool)
  | int (z : Int)
  | fix2 (c : Int)
  | daytime (day : BitVec 3) (hour : BitVec 5) (minute : Bits8)
  | date (month day : Bits8)
  | service (s : Service)
  deriving DecidableEq, Repr

/-- The narrowed payload `V` (R130, R131): 16 bits for FULL, 8 bits for HIGH and LOW. -/
inductive Narrowed where
  | word (v : Bits16)
  | byte (v : Bits8)
  deriving DecidableEq, Repr

/-- One pair of `PROPS` (R114): a `NAME` index and a value. -/
structure Property where
  name : NameIdx
  value : Value
  deriving DecidableEq, Repr

/-- A result (R115, R181). A field outside its "defined when" condition does not exist (D4, I2, I3). -/
inductive Result where
  | decoded (mt : MT3) (ident : DataId) (descr : BitVec 10) (props : List Property)
  | unknownId (mt : MT3) (ident : DataId)
  | malformed
  deriving DecidableEq, Repr

/-- The input port (R90, D2): `FRAME_VALID` and `FRAME`; with `FRAME_VALID = 0` there is no `FRAME` (I1). -/
inductive FrameIn where
  | invalid
  | valid (frame : Word32)
  deriving DecidableEq, Repr

/-! ## The transaction in progress (R21) -/

/-- The signals of a transaction on a known identifier (R21). `B0`, `MT`, `ID`, `P` are views of `frame`
(`Machine/Ops.lean`). `v` and `rv` are the last narrowed value and converter result, none before the first (log 17). -/
structure Txn where
  /-- `FRAME` -/
  frame : Word32
  /-- `E` -/
  entry : EntryRec
  /-- the descriptor index `k` (R21, R22). Between the last visit and the closing step, a state the spec does not have, it
  equals `n`, one past R21's range: a DESIGN CHOICE (log 1) -/
  k : Nat
  /-- `V` -/
  v : Option Narrowed
  /-- `Rv` -/
  rv : Option Value
  /-- `PROPS` -/
  props : List Property
  deriving DecidableEq, Repr

/-- The boot order (R233): the load check is still to run, or it has passed and the block accepts frames. -/
inductive Boot where
  | checkPending
  | inOperation
  deriving DecidableEq, Repr

/-- The whole machine. -/
structure State where
  /-- the parameters of R6, configuration: no step writes them (R20, R24) -/
  params : Params
  /-- the catalog ROM, configuration: no step writes it (R47) -/
  rom : Memory
  /-- whether the load check has passed (R233) -/
  boot : Boot
  /-- the MODEL's own: port values presented and not yet taken, oldest first (log 9) -/
  port : List FrameIn
  /-- the transaction in progress; none outside a transaction (R20, R230) -/
  txn : Option Txn
  /-- the output holding register (R28); none: no result yet (R230, D20) -/
  output : Option Result
  /-- the MODEL's own: free month names drawn by the host's rendering (log 12) -/
  draws : Nat
  deriving DecidableEq, Repr

/-- What the load check reports: "names the failing check and the identifier and descriptor index" (R69). -/
structure LoadError where
  check : Check
  ident : Nat
  /-- the descriptor index within the entry; none where the entry word itself fails (W8) -/
  desc : Option Nat
  deriving DecidableEq, Repr

/-- The block has no trap and no run-time failure of its own (R200, R206). -/
inductive Fault where
  /-- Raised by a descriptor's meaning evaluated while no transaction is in progress: its operands `MT`, `P`, `PROPS` "do
  not exist outside a transaction" (R20), so the spec gives no effect. `step` never raises it. Safe. -/
  | noTransaction
  deriving DecidableEq, Repr

/-- Why a step has no meaning. -/
inductive Refusal where
  /-- Raised by an arm of `exec` whose instruction has no meaning yet; no arm does. Safe. -/
  | notModelled (mnemonic : String)
  /-- Raised by the load check (R69, R203): the catalog is refused and the block decodes nothing. Safe. -/
  | catalogRefused (e : LoadError)
  /-- Raised by the descriptor fetch on a word that fails one of W1-W6 (R70); no accepted catalog holds one. Safe. -/
  | illegalDescriptor (c : Check)
  /-- Raised by the descriptor fetch past the end of `DESC` (W8, R70); no accepted catalog reaches it. Safe. -/
  | descriptorAbsent
  deriving DecidableEq, Repr

/-- Nothing loaded yet: every slot reads as absent. -/
def Memory.empty : Memory := ⟨[], [], [], []⟩

/-- The machine right after reset (R230, R231, R233): default parameters, no transaction, no result, the load check still
to run. The catalog is loaded from outside (R232), so the ROM is empty here: a DESIGN CHOICE (log 5). -/
def State.reset : State where
  params := Params.default
  rom := Memory.empty
  boot := .checkPending
  port := []
  txn := none
  output := none
  draws := 0

end Sys2Proof.Machine
end

