-- ==== Sys2Proof/Machine/Operands.lean ====
section
/-! DEFINITION. Operand assembly: the header fields of a frame (40_frame_header.md R92-R94), the filter test (R112), the
narrowed payload and the selected bit (42_field_slice.md R130-R132), and the reading of a vector as a number (R8). -/

namespace Sys2Proof.Machine

/-! ## Header parser -/

/-- `B0 <- FRAME[31:24]` (R92). -/
def frameB0 (w : Word32) : Bits8 := w.extractLsb' 24 8

/-- `MT <- (B0 & 0x70) >> 4` (R92). -/
def frameMt (w : Word32) : MT3 := ((frameB0 w &&& 0x70#8) >>> 4).setWidth 3

/-- `ID <- FRAME[23:16]` (R93). -/
def frameId (w : Word32) : DataId := w.extractLsb' 16 8

/-- `P <- FRAME[15:0]` (R94). -/
def framePayload (w : Word32) : Bits16 := w.extractLsb' 0 16

def Txn.b0 (t : Txn) : Bits8 := frameB0 t.frame
def Txn.mt (t : Txn) : MT3 := frameMt t.frame
def Txn.ident (t : Txn) : DataId := frameId t.frame
def Txn.payload (t : Txn) : Bits16 := framePayload t.frame

/-! ## Filter -/

/-- `Applies(d, MT) = (d.FV = 0) or (d.FMT = MT)` (R112). -/
def applies (f : Filter) (mt : MT3) : Bool :=
  match f with
  | none => true
  | some m => m == mt

/-! ## Field-slice extractor -/

/-- NARROW on HIGH or LOW (R130): `(P >> 8)[7:0]`, `(P & 0xFF)[7:0]`. -/
def narrowByte (p : Bits16) : Half → Bits8
  | .high => (p >>> 8).setWidth 8
  | .low => (p &&& 0xFF#16).setWidth 8

/-- NARROW on FULL (R130). -/
def narrowWord (p : Bits16) : Bits16 := p

/-- `Narrow(P, SEL)` (R130, R131). -/
def narrow (p : Bits16) : Sel → Narrowed
  | .full => .word (narrowWord p)
  | .high => .byte (narrowByte p .high)
  | .low => .byte (narrowByte p .low)

/-- BITSEL (R132): `V[BIT]`, the same as `(V >> BIT) & 1`. -/
def bitSel (v : Bits8) (bit : BitVec 3) : Bool := (v >>> bit.toNat) &&& 1#8 == 1#8

/-! ## Vectors as numbers (R8) -/

/-- `zext_N(v)`. -/
def zext {n : Nat} (v : BitVec n) : Int := v.toNat

/-- `sext_N(v) = zext_N(v) - 2^N * v[N-1]`. -/
def sext {n : Nat} (v : BitVec n) : Int := zext v - if v.msb then 2 ^ n else 0

end Sys2Proof.Machine
end

