-- ==== Sys2Proof/Machine/Converters.lean ====
section
/-! DEFINITION. The ten primitive converters (43_converters.md R141-R154), each a total function of the narrowed value
(R155). F8.8 numbers are carried as exact integers over 256 (log 16). -/

namespace Sys2Proof.Machine

/-- FLAG (R141). -/
def convFlag (v : Bits8) (bit : BitVec 3) : Value := .bool (bitSel v bit)

/-- U8 (R142). -/
def convU8 (v : Bits8) : Value := .int (zext v)

/-- S8 (R143). -/
def convS8 (v : Bits8) : Value := .int (sext v)

/-- U16 (R144). -/
def convU16 (v : Bits16) : Value := .int (zext v)

/-- S16 (R145). -/
def convS16 (v : Bits16) : Value := .int (sext v)

/-! ## F8.8 (R146-R148) -/

/-- `V[15:8]`. -/
def highByte (v : Bits16) : Bits8 := v.extractLsb' 8 8

/-- `V[7:0]`. -/
def lowByte (v : Bits16) : Bits8 := v.extractLsb' 0 8

/-- 256 times the exact value `x` of R146 (sign bit clear) and R147 (sign bit set, by `F88_NEG_MODE`). -/
def f88Numerator (mode : F88NegMode) (v : Bits16) : Int :=
  if v.msb then
    match mode with
    | .twosComplement => sext v
    | .invertHbPlusFraction => -(zext (~~~ highByte v) * 256 + zext (lowByte v))
  else zext (highByte v) * 256 + zext (lowByte v)

/-- R148 on `y = 100 * num / 256`, by `F88_TIE`; `/` on a positive divisor is the floor. The result is an integer, so
there is no negative zero (D30). -/
def roundCenti (tie : F88Tie) (num : Int) : Int :=
  match tie with
  | .halfAwayFromZero => num.sign * ((100 * num.natAbs + 128) / 256)
  | .halfTowardPosInf => (100 * num + 128) / 256

/-- F88 (R146, R147, R148): a centi-value. -/
def convF88 (mode : F88NegMode) (tie : F88Tie) (v : Bits16) : Value :=
  .fix2 (roundCenti tie (f88Numerator mode v))

/-! ## Packed kinds (R149-R152) -/

/-- `day <- V[15:13]` (R149). -/
def dtDay (v : Bits16) : BitVec 3 := v.extractLsb' 13 3

/-- `hour <- V[12:8]` (R149). -/
def dtHour (v : Bits16) : BitVec 5 := v.extractLsb' 8 5

/-- `minute <- V[7:0]` (R149). -/
def dtMinute (v : Bits16) : Bits8 := v.extractLsb' 0 8

/-- `DT_VALID` (R150). -/
def dtValid (hour : BitVec 5) (minute : Bits8) : Bool := hour.toNat ≤ 23 && minute.toNat ≤ 59

/-- DAYTIME (R150): the triple, or the raw value passed through. -/
def convDaytime (guard : DtGuard) (v : Bits16) : Value :=
  if guard = .alwaysRender ∨ dtValid (dtHour v) (dtMinute v) then .daytime (dtDay v) (dtHour v) (dtMinute v)
  else .int (zext v)

/-- `DATE_VALID` (R152). -/
def dateValid (month day : Bits8) : Bool := month.toNat ≤ 12 && 1 ≤ day.toNat && day.toNat ≤ 31

/-- DATE (R151, R152): the pair, or the raw value passed through. -/
def convDate (guard : DtGuard) (v : Bits16) : Value :=
  if dateValid (highByte v) (lowByte v) then .date (highByte v) (lowByte v)
  else if guard = .alwaysRender then .date (highByte v) (lowByte v)
  else .int (zext v)

/-- YEAR (R153). -/
def convYear (v : Bits16) : Value := .int (zext v)

/-- VENDOR_SVC (R154). -/
def convSvc (v : Bits16) : Value :=
  if highByte v = 0#8 then .service .none
  else
    match (v.extractLsb' 0 4).toNat with
    | 1 => .service .typeA
    | 2 => .service .typeB
    | 3 => .service .typeC
    | _ => .service .unknown

/-- CONVERT after NARROW (R75, R140): the value an instruction makes of a payload. -/
def instrValue (c : Params) (p : Bits16) : Instr → Value
  | .flag _ h b _ => convFlag (narrowByte p h) b
  | .u8 _ h _ => convU8 (narrowByte p h)
  | .s8 _ h _ => convS8 (narrowByte p h)
  | .u16 _ _ => convU16 (narrowWord p)
  | .s16 _ _ => convS16 (narrowWord p)
  | .f88 _ _ => convF88 c.negMode c.tie (narrowWord p)
  | .daytime _ _ => convDaytime c.guard (narrowWord p)
  | .date _ _ => convDate c.guard (narrowWord p)
  | .year _ _ => convYear (narrowWord p)
  | .svc _ _ => convSvc (narrowWord p)

/-- The ranges R180 states for the tagged values. -/
def Value.inRange : Value → Bool
  | .int z => -32768 ≤ z && z ≤ 65535
  | .fix2 c => -12800 ≤ c && c ≤ 12800
  | .bool _ | .daytime _ _ _ | .date _ _ | .service _ => true

end Sys2Proof.Machine
end

