-- ==== Sys2Proof/Machine/Ops.lean ====
section
/-! DEFINITION. The named operations: reads and writes of the catalog ROM (20_memory.md), property insertion and the visit of
one descriptor (41_catalog_lookup.md), and the opening and closing of a transaction. Errors are result values, never traps
(60_exceptions.md R200, R206), so the shared operation of this machine is the visit, not an exception entry. -/

namespace Sys2Proof.Machine

/-! ## Entry words (R68) -/

/-- `PRESENT`, bit 31. -/
def entryPresent (ew : Word32) : Bool := ew.extractLsb' 31 1 == 1#1

/-- `DESCR`, bits 25:16; `BASE`, bits 15:0; `N`, bits 30:26. -/
def entryRecord (ew : Word32) : EntryRec where
  descr := ew.extractLsb' 16 10
  base := ew.extractLsb' 0 16
  n := ew.extractLsb' 26 5

/-- The word of a present entry (R68). -/
def entryWord (e : EntryRec) : Word32 :=
  BitVec.ofNat 32 (e.base.toNat + e.descr.toNat * 2 ^ 16 + e.n.toNat * 2 ^ 26 + 2 ^ 31)

/-! ## The ROM -/

/-- The word listed for an identifier, `unlistedEntry` where none is. -/
def readSlot (id : Nat) : List (Nat × Word32) → Word32
  | [] => unlistedEntry
  | (a, w) :: rest => if a = id then w else readSlot id rest

/-- `ENTRY[id]`: one whole word (R46); every identifier is a legal address (R41). -/
def Memory.entryAt (m : Memory) (id : DataId) : Word32 := readSlot id.toNat m.entry

/-- `CatRead(id)` (R41): the entry record, or NONE exactly when `PRESENT = 0`. -/
def catRead (m : Memory) (id : DataId) : Option EntryRec :=
  if entryPresent (m.entryAt id) then some (entryRecord (m.entryAt id)) else none

/-- `DESC[j]`: one whole word (R46); none past the end of the table. -/
def Memory.descAt (m : Memory) (j : Nat) : Option Word32 := m.desc[j]?

/-- Writing one slot of a canonical list: writing what an unlisted slot reads removes the entry. No step of the block
writes (R47); only the loading of a catalog does (R232). -/
def writeSlot (id : Nat) (w : Word32) : List (Nat × Word32) → List (Nat × Word32)
  | [] => if w = unlistedEntry then [] else [(id, w)]
  | (a, x) :: rest =>
    if a < id then (a, x) :: writeSlot id w rest
    else
      let tail := if a = id then rest else (a, x) :: rest
      if w = unlistedEntry then tail else (id, w) :: tail

/-- `ENTRY[id] <- w`, at load time only (R232). -/
def Memory.writeEntry (m : Memory) (id : DataId) (w : Word32) : Memory :=
  { m with entry := writeSlot id.toNat w m.entry }

/-! ## Properties -/

/-- `Insert(PROPS, name, v)` (R114): last write wins, the position of the first insertion is kept (D26). -/
def insertProp (name : NameIdx) (v : Value) : List Property → List Property
  | [] => [⟨name, v⟩]
  | p :: rest => if p.name = name then ⟨name, v⟩ :: rest else p :: insertProp name v rest

/-! ## The visit of one descriptor (the loop body of R115) -/

/-- A descriptor whose filter does not apply: only `k` advances (R112, R113). -/
def Txn.skip (t : Txn) : Txn := { t with k := t.k + 1 }

/-- A descriptor that applies: `V`, `Rv`, `PROPS` are written and `k` advances (R115). -/
def Txn.deliver (t : Txn) (name : NameIdx) (v : Narrowed) (r : Value) : Txn :=
  { t with v := some v, rv := some r, props := insertProp name r t.props, k := t.k + 1 }

/-- Replace the transaction in progress; without one there are no signals to act on (R20; log 14). -/
def withTxn (s : State) (f : Txn → Txn) : Host.Outcome State Fault Refusal :=
  match s.txn with
  | none => .fault .noTransaction
  | some t => .next { s with txn := some (f t) }

/-- The visit of a byte descriptor: FILTER, NARROW, convert, INSERT (R115). -/
def visitByte (f : Filter) (h : Half) (name : NameIdx) (conv : Bits8 → Value) (t : Txn) : Txn :=
  if applies f t.mt then t.deliver name (narrow t.payload h.toSel) (conv (narrowByte t.payload h)) else t.skip

/-- The visit of a word descriptor (R115). -/
def visitWord (f : Filter) (name : NameIdx) (conv : Bits16 → Value) (t : Txn) : Txn :=
  if applies f t.mt then t.deliver name (narrow t.payload .full) (conv (narrowWord t.payload)) else t.skip

/-! ## Sequencing (R113) and the boundaries of a transaction (R115) -/

/-- What the next step does. -/
inductive Activity where
  /-- the load check has not passed yet (R233) -/
  | bootCheck
  /-- no transaction in progress: take a port value -/
  | accept
  /-- a descriptor is left: visit it -/
  | visit (t : Txn)
  /-- every descriptor has been visited, `k = n`: give the result (a state of the model's own, log 1) -/
  | finish (t : Txn)
  deriving DecidableEq, Repr

def activity (s : State) : Activity :=
  match s.boot, s.txn with
  | .checkPending, _ => .bootCheck
  | .inOperation, none => .accept
  | .inOperation, some t => if t.k < t.entry.n.toNat then .visit t else .finish t

/-- `d <- DESC[E.base + k]`, decoded. -/
def fetchDesc (m : Memory) (t : Txn) : Except Refusal Instr :=
  match m.descAt (t.entry.base.toNat + t.k) with
  | none => .error .descriptorAbsent
  | some w =>
    match decode w with
    | .error c => .error (.illegalDescriptor c)
    | .ok i => .ok i

/-- The transaction R115 opens on a known identifier. -/
def openTxn (w : Word32) (e : EntryRec) : Txn :=
  { frame := w, entry := e, k := 0, v := none, rv := none, props := [] }

/-- The first half of DECODE (R115, R205): the ingress outcome, then the lookup. With nothing presented the block waits
(R234: no ordering or spacing is needed; log 9). -/
def acceptFrame (s : State) : State :=
  match s.port with
  | [] => s
  | .invalid :: rest => { s with port := rest, output := some .malformed }
  | .valid w :: rest =>
    match catRead s.rom (frameId w) with
    | none => { s with port := rest, output := some (.unknownId (frameMt w) (frameId w)) }
    | some e => { s with port := rest, txn := some (openTxn w e) }

/-- The result of a transaction whose descriptors are all visited (R115, R111). -/
def Txn.result (t : Txn) : Result := .decoded t.mt t.ident t.entry.descr t.props

/-- The end of DECODE (R115): the output register holds the result (R28), no signal remains (R20). -/
def finishTxn (s : State) (t : Txn) : State := { s with txn := none, output := some t.result }

end Sys2Proof.Machine
end

