-- ==== Sys2Proof/Machine/ByteKinds.lean ====
section
/-! DEFINITION. The meanings of the 8-bit descriptor kinds (R66): FLAG, U8, S8. -/

namespace Sys2Proof.Machine

/-- FLAG (R141): BOOL of the selected bit of the selected half. -/
def execFlag (f : Filter) (h : Half) (bit : BitVec 3) (name : NameIdx) (s : State) :
    Host.Outcome State Fault Refusal :=
  withTxn s (visitByte f h name fun v => convFlag v bit)

/-- U8 (R142). -/
def execU8 (f : Filter) (h : Half) (name : NameIdx) (s : State) : Host.Outcome State Fault Refusal :=
  withTxn s (visitByte f h name convU8)

/-- S8 (R143). -/
def execS8 (f : Filter) (h : Half) (name : NameIdx) (s : State) : Host.Outcome State Fault Refusal :=
  withTxn s (visitByte f h name convS8)

end Sys2Proof.Machine
end

