-- ==== Sys2Proof/Machine/WordKinds.lean ====
section
/-! DEFINITION. The meanings of the 16-bit descriptor kinds (R66): U16, S16, F88, DAYTIME, DATE, YEAR, VENDOR_SVC. -/

namespace Sys2Proof.Machine

/-- U16 (R144). -/
def execU16 (f : Filter) (name : NameIdx) (s : State) : Host.Outcome State Fault Refusal :=
  withTxn s (visitWord f name convU16)

/-- S16 (R145). -/
def execS16 (f : Filter) (name : NameIdx) (s : State) : Host.Outcome State Fault Refusal :=
  withTxn s (visitWord f name convS16)

/-- F88 (R146, R147, R148), by `F88_NEG_MODE` and `F88_TIE`. -/
def execF88 (f : Filter) (name : NameIdx) (s : State) : Host.Outcome State Fault Refusal :=
  withTxn s (visitWord f name (convF88 s.params.negMode s.params.tie))

/-- DAYTIME (R149, R150), by `DT_GUARD`. -/
def execDaytime (f : Filter) (name : NameIdx) (s : State) : Host.Outcome State Fault Refusal :=
  withTxn s (visitWord f name (convDaytime s.params.guard))

/-- DATE (R151, R152), by `DT_GUARD`. -/
def execDate (f : Filter) (name : NameIdx) (s : State) : Host.Outcome State Fault Refusal :=
  withTxn s (visitWord f name (convDate s.params.guard))

/-- YEAR (R153). -/
def execYear (f : Filter) (name : NameIdx) (s : State) : Host.Outcome State Fault Refusal :=
  withTxn s (visitWord f name convYear)

/-- VENDOR_SVC (R154). -/
def execSvc (f : Filter) (name : NameIdx) (s : State) : Host.Outcome State Fault Refusal :=
  withTxn s (visitWord f name convSvc)

end Sys2Proof.Machine
end

