-- ==== Sys2Proof/Machine/Dispatch.lean ====
section
/-! DEFINITION. The dispatch: one arm per constructor of `Instr`, each one call of its meaning. -/

namespace Sys2Proof.Machine

def exec (i : Instr) (s : State) : Host.Outcome State Fault Refusal :=
  match i with
  | .flag f h bit name => Sys2Proof.Machine.execFlag f h bit name s
  | .u8 f h name => Sys2Proof.Machine.execU8 f h name s
  | .s8 f h name => Sys2Proof.Machine.execS8 f h name s
  | .u16 f name => Sys2Proof.Machine.execU16 f name s
  | .s16 f name => Sys2Proof.Machine.execS16 f name s
  | .f88 f name => Sys2Proof.Machine.execF88 f name s
  | .daytime f name => Sys2Proof.Machine.execDaytime f name s
  | .date f name => Sys2Proof.Machine.execDate f name s
  | .year f name => Sys2Proof.Machine.execYear f name s
  | .svc f name => Sys2Proof.Machine.execSvc f name s

end Sys2Proof.Machine
end

