-- ==== Sys2Proof/Machine/FetchSlot.lean ====
section
/-! DEFINITION. Placing one descriptor word where the next step fetches (behind `State.withFetchWord`): a loaded catalog with
that one descriptor, and a transaction in progress that is about to visit it (log 23). -/

namespace Sys2Proof.Machine

/-- A catalog whose only descriptor is `w`, in the entry of identifier `ident`; strings are added up to the indices in use. -/
def oneDescRom (m : Memory) (ident : DataId) (w : Word32) : Memory :=
  { entry := [(ident.toNat, entryWord ⟨0, 0, 1⟩)]
    desc := [w]
    name := m.name ++ List.replicate ((nameField w).toNat + 1 - m.name.length) ""
    descr := if m.descr.isEmpty then [""] else m.descr }

/-- A frame for identifier 0 with payload 0 whose message type the word's filter lets pass. -/
def frameFor (w : Word32) : Word32 := BitVec.ofNat 32 ((fmtField w).toNat * 2 ^ 28)

/-- The transaction about to visit the one descriptor: the one in progress, set to index 0 of the entry, or a new one. -/
def fetchTxn (o : Option Txn) (w : Word32) : Txn :=
  match o with
  | some t => { t with entry := ⟨0, 0, 1⟩, k := 0 }
  | none => openTxn (frameFor w) ⟨0, 0, 1⟩

/-- `s` with the descriptor word `w` stored where the next step fetches. -/
def placeWord (s : State) (w : Word32) : State :=
  { s with
    rom := oneDescRom s.rom (fetchTxn s.txn w).ident w
    boot := .inOperation
    txn := some (fetchTxn s.txn w) }

end Sys2Proof.Machine
end

