-- ==== Sys2Proof/Machine/LoadCheck.lean ====
section
/-! DEFINITION. The catalog load check W1-W9 (30_encoding.md R69) and its step in the boot order (70_reset_and_hazards.md
R233). The order in which several failing checks are reported is the model's (log 6). -/

namespace Sys2Proof.Machine

/-- W1-W7 on one descriptor word (R69). -/
def checkDescWord (maxNames : Nat) (w : Word32) : Option Check :=
  match decode w with
  | .error c => some c
  | .ok i => if i.name.toNat < maxNames then none else some .w7

/-- The first failing word of an entry's descriptors, with its index. -/
def firstBadWord (maxNames : Nat) : Nat → List Word32 → Option (Check × Nat)
  | _, [] => none
  | k, w :: rest =>
    match checkDescWord maxNames w with
    | some c => some (c, k)
    | none => firstBadWord maxNames (k + 1) rest

/-- "Filters overlap when either filter is absent or both are equal" (W9). -/
def filtersOverlap : Filter → Filter → Bool
  | some m, some m' => m == m'
  | _, _ => true

/-- W9 on two descriptors. -/
def collide (a b : Instr) : Bool := a.name == b.name && filtersOverlap a.filter b.filter

/-- The index of the first descriptor that collides with one before it (W9). -/
def firstCollision : Nat → List Instr → List Instr → Option Nat
  | _, _, [] => none
  | k, seen, i :: rest => if seen.any (collide i) then some k else firstCollision (k + 1) (i :: seen) rest

/-- The instructions of a list of words; none if one fails W1-W6. -/
def decodeAll : List Word32 → Option (List Instr)
  | [] => some []
  | w :: rest =>
    match decode w, decodeAll rest with
    | .ok i, some is => some (i :: is)
    | _, _ => none

/-- The words `DESC[BASE] .. DESC[BASE+N-1]` of an entry, in order (R68). -/
def entryWords (m : Memory) (e : EntryRec) : List Word32 := (m.desc.drop e.base.toNat).take e.n.toNat

/-- W8 on a present entry: `N <= MAX_DESC`, `BASE + N <= |DESC|`, `DESCR` a valid string index. -/
def entryInBounds (c : Params) (m : Memory) (e : EntryRec) : Bool :=
  e.n.toNat ≤ c.maxDesc && e.base.toNat + e.n.toNat ≤ m.desc.length && e.descr.toNat < m.descr.length

/-- All checks of R69 on one slot. -/
def checkSlot (c : Params) (m : Memory) (slot : Nat × Word32) : Option LoadError :=
  if !entryPresent slot.2 then
    if slot.2 = 0#32 then none else some ⟨.w8, slot.1, none⟩
  else if !entryInBounds c m (entryRecord slot.2) then some ⟨.w8, slot.1, none⟩
  else
    match firstBadWord m.maxNames 0 (entryWords m (entryRecord slot.2)) with
    | some (w, k) => some ⟨w, slot.1, some k⟩
    | none =>
      if c.rejectCollision then
        match decodeAll (entryWords m (entryRecord slot.2)) with
        | none => none
        | some is => (firstCollision 0 [] is).map fun k => ⟨.w9, slot.1, some k⟩
      else none

/-- The load check (R69): none where the catalog is accepted. An unlisted slot is 0 and passes W8. -/
def loadCheck (c : Params) (m : Memory) : Option LoadError := m.entry.findSome? (checkSlot c m)

/-- Step 2 of the boot order (R233): accept frames from now on, or refuse the catalog by name (R203). -/
def bootStep (s : State) : Host.Outcome State Fault Refusal :=
  match loadCheck s.params s.rom with
  | none => .next { s with boot := .inOperation }
  | some e => .refused (.catalogRefused e)

end Sys2Proof.Machine
end

