-- ==== Sys2Proof/Machine/Step.lean ====
section
/-! DEFINITION. One step: the load check, the acceptance of a frame, the visit of one descriptor, or the closing of a
transaction (41_catalog_lookup.md R115, 70_reset_and_hazards.md R233; log 1). -/

namespace Sys2Proof.Machine

/-- One step. The visit fetches `DESC[E.base + k]` and runs it; `exec` itself advances `k` (R113). -/
def step (s : State) : Host.Outcome State Fault Refusal :=
  match activity s with
  | .bootCheck => bootStep s
  | .accept => .next (acceptFrame s)
  | .visit t =>
    match fetchDesc s.rom t with
    | .error r => .refused r
    | .ok i => exec i s
  | .finish t => .next (finishTxn s t)

/-- `s` with an instruction of `nbits` bits `w` stored where the next step fetches (log 23). -/
def State.withFetchWord (s : State) (nbits w : Nat) : State :=
  placeWord s (BitVec.ofNat 32 (w % 2 ^ nbits))

end Sys2Proof.Machine
end

