-- ==== Sys2Proof/Machine/Flags.lean ====
section
/-! DEFINITION. The status field and its derived flags (10_state.md R23). No operation has another flag (R155). -/

namespace Sys2Proof.Machine

/-- `STATUS` (R23, D34); 3 is never produced (I13). -/
def Result.status : Result → BitVec 2
  | .decoded _ _ _ _ => 0
  | .unknownId _ _ => 1
  | .malformed => 2

/-- `ERR_MALFORMED = (STATUS = 2)` (R23). -/
def Result.errMalformed (r : Result) : Bool := r.status == 2#2

/-- `ID_KNOWN = (STATUS = 0)` (R23). -/
def Result.idKnown (r : Result) : Bool := r.status == 0#2

end Sys2Proof.Machine
end

