-- ==== Sys2Proof/Machine/ResultPort.lean ====
section
/-! DEFINITION. The result port (44_output_rendering.md R180, R181): the bits that carry a result. A field outside its
"defined when" condition has no value (D4, I2, I3). -/

namespace Sys2Proof.Machine

/-- The codes of R186. -/
def Service.code : Service → BitVec 3
  | .none => 0
  | .typeA => 1
  | .typeB => 2
  | .typeC => 3
  | .unknown => 4

/-- `VTAG` (R180). -/
def Value.vtag : Value → BitVec 3
  | .bool _ => 0
  | .int _ => 1
  | .fix2 _ => 2
  | .daytime _ _ _ => 3
  | .date _ _ => 4
  | .service _ => 5

/-- `VDATA[16:0]` (R180); integers as 17-bit two's complement. -/
def Value.vdata : Value → BitVec 17
  | .bool b => (BitVec.ofBool b).setWidth 17
  | .int z => BitVec.ofInt 17 z
  | .fix2 c => BitVec.ofInt 17 c
  | .daytime d h m => BitVec.ofNat 17 (d.toNat * 2 ^ 13 + h.toNat * 2 ^ 8 + m.toNat)
  | .date mo d => BitVec.ofNat 17 (mo.toNat * 2 ^ 8 + d.toNat)
  | .service s => s.code.setWidth 17

/-- `{PNAME[9:0], VTAG[2:0], VDATA[16:0]}` (R181). -/
def Property.bits (p : Property) : BitVec 30 := p.name ++ p.value.vtag ++ p.value.vdata

/-- The host's reading of a service code (R186). -/
def serviceOfCode (c : BitVec 3) : Option Service :=
  match c.toNat with
  | 0 => some .none
  | 1 => some .typeA
  | 2 => some .typeB
  | 3 => some .typeC
  | 4 => some .unknown
  | _ => none

/-- The tagged value carried by `VTAG` and `VDATA` (R180); tags 6 and 7 and service codes 5 to 7 carry none. -/
def valueOfBits (tag : BitVec 3) (d : BitVec 17) : Option Value :=
  match tag.toNat with
  | 0 => some (.bool (d.getLsbD 0))
  | 1 => some (.int d.toInt)
  | 2 => some (.fix2 d.toInt)
  | 3 => some (.daytime (d.extractLsb' 13 3) (d.extractLsb' 8 5) (d.extractLsb' 0 8))
  | 4 => some (.date (d.extractLsb' 8 8) (d.extractLsb' 0 8))
  | 5 => (serviceOfCode (d.extractLsb' 0 3)).map .service
  | _ => none

/-- The fields of the result port (R181). -/
structure ResultPort where
  status : BitVec 2
  mt : Option MT3
  ident : Option DataId
  descrIdx : Option (BitVec 10)
  pcount : BitVec 5
  prop : List (BitVec 30)
  deriving DecidableEq, Repr

/-- The port a result shows (R181). -/
def portOf (r : Result) : ResultPort :=
  match r with
  | .decoded mt ident descr props =>
    ⟨r.status, some mt, some ident, some descr, BitVec.ofNat 5 props.length, props.map Property.bits⟩
  | .unknownId mt ident => ⟨r.status, some mt, some ident, none, 0, []⟩
  | .malformed => ⟨r.status, none, none, none, 0, []⟩

end Sys2Proof.Machine
end

