-- ==== Sys2Proof/Machine/Render.lean ====
section
/-! DEFINITION. Host rendering (44_output_rendering.md R182-R187) and the fixed tables (R26, R95, R184-R186). -/

namespace Sys2Proof.Machine

/-! ## Fixed tables -/

/-- `MSG_TYPE_NAME` (R95). -/
def msgTypeNames : List String :=
  ["Read-Data", "Write-Data", "Invalid-Data", "Reserved", "Read-Ack", "Write-Ack", "Data-Invalid", "Unknown-DataId"]

/-- `DAY_NAME` (R184). -/
def dayNames : List String :=
  ["unknown", "monday", "tuesday", "wednesday", "thursday", "friday", "saturday", "sunday"]

/-- `MONTH_NAME` (R185). -/
def monthNames : List String :=
  ["unknown", "january", "february", "march", "april", "may", "june", "july", "august", "september", "october",
    "november", "december"]

def msgTypeName (mt : MT3) : String := msgTypeNames.getD mt.toNat ""

def dayName (d : BitVec 3) : String := dayNames.getD d.toNat ""

/-- `MONTH_NAME[month]`, and for `month >= 13` the free name of the given draw (R152, I5; log 11). -/
def monthName (draw : Nat) (month : Bits8) : String :=
  match monthNames[month.toNat]? with
  | some s => s
  | none => Config.unspecifiedMonthName draw month

/-- `SERVICE_NAME` (R186). -/
def serviceName : Service → String
  | .none => "None"
  | .typeA => "Type A"
  | .typeB => "Type B"
  | .typeC => "Type C"
  | .unknown => "Unknown"

/-! ## RENDER_VALUE -/

/-- A property value of the source's result object (R183): `boolean`, `integer`, `float`, `string`. -/
inductive Rendered where
  | boolean (b : Bool)
  | integer (z : Int)
  | real (x : Rat)
  | string (s : String)
  deriving DecidableEq, Repr

/-- `dec(n)`: decimal, no leading zeros, no padding (R183, D14). -/
def dec (n : Nat) : String := Nat.repr n

/-- RENDER_VALUE (R183). `draw` numbers the free month name, read only for `month >= 13`. -/
def renderValue (draw : Nat) : Value → Rendered
  | .bool b => .boolean b
  | .int z => .integer z
  | .fix2 c => .real ((c : Rat) / 100)
  | .daytime d h m => .string (dayName d ++ ", " ++ dec h.toNat ++ ":" ++ dec m.toNat)
  | .date mo d => .string (monthName draw mo ++ ", " ++ dec d.toNat)
  | .service s => .string (serviceName s)

/-! ## RENDER_RESULT -/

/-- The source's Decode Result (R182). The form of the error tag is not in the source (N7): it is the constructor. -/
inductive HostResult where
  /-- `messageType`, `dataId.id`, `dataId.name`, `properties` in order -/
  | object (messageType : String) (ident : Nat) (name : String) (properties : List (String × Rendered))
  /-- error tag, empty properties; `messageType` and `dataId` absent (D4) -/
  | errorTag
  deriving DecidableEq, Repr

/-- `NAME[i]` (R187). -/
def Memory.nameAt (m : Memory) (i : NameIdx) : String := m.name.getD i.toNat ""

/-- `DESCR[i]` (R111). -/
def Memory.descrAt (m : Memory) (i : BitVec 10) : String := m.descr.getD i.toNat ""

/-- The rendered properties in `PROPS` order; each takes a draw of its own. -/
def renderProps (m : Memory) : Nat → List Property → List (String × Rendered)
  | _, [] => []
  | draw, p :: rest => (m.nameAt p.name, renderValue draw p.value) :: renderProps m (draw + 1) rest

/-- RENDER_RESULT (R182). -/
def renderResult (m : Memory) (draw : Nat) : Result → HostResult
  | .decoded mt ident descr props => .object (msgTypeName mt) ident.toNat (m.descrAt descr) (renderProps m draw props)
  | .unknownId mt ident => .object (msgTypeName mt) ident.toNat "Unknown" []
  | .malformed => .errorTag

end Sys2Proof.Machine
end

