-- ==== Sys2Proof/Machine/CatalogText.lean ====
section
/-! DEFINITION. The textual catalog of 30_encoding.md R73: its reading, and its assembly into the ROM (R65, R68). The spec
leaves the spacing of the text open; what is read here is log 19. -/

namespace Sys2Proof.Machine

/-! ## The text as data -/

/-- One `desc` line: `mnem span ["." BIT] "->" PNAME ["@" MTNAME]`. -/
structure DescLine where
  kind : Kind
  sel : Sel
  bit : Option (BitVec 3)
  pname : String
  filter : Filter
  deriving DecidableEq, Repr

/-- One `entry` with its `desc` lines. -/
structure EntryText where
  ident : Nat
  descr : String
  descs : List DescLine
  deriving DecidableEq, Repr

/-! ## Reading the text -/

/-- Cut a list of characters at every `c`. -/
def cutAt (c : Char) : List Char → List (List Char)
  | [] => [[]]
  | x :: rest =>
    if x = c then [] :: cutAt c rest
    else
      match cutAt c rest with
      | [] => [[x]]
      | part :: more => (x :: part) :: more

/-- The tokens of a line: the parts between spaces. -/
def tokens (cs : List Char) : List (List Char) := (cutAt ' ' cs).filter fun t => !t.isEmpty

/-- A decimal numeral of at least one digit. -/
def readDecimal (cs : List Char) : Option Nat :=
  if cs.isEmpty then none
  else cs.foldl (fun acc c =>
    match acc with
    | none => none
    | some n => if 48 ≤ c.toNat ∧ c.toNat ≤ 57 then some (n * 10 + (c.toNat - 48)) else none) (some 0)

/-- `mnem` (R73); `svc` is VENDOR_SVC. -/
def readMnem (cs : List Char) : Option Kind :=
  if cs = "flag".toList then some .flag
  else if cs = "u8".toList then some .u8
  else if cs = "s8".toList then some .s8
  else if cs = "u16".toList then some .u16
  else if cs = "s16".toList then some .s16
  else if cs = "f88".toList then some .f88
  else if cs = "daytime".toList then some .daytime
  else if cs = "date".toList then some .date
  else if cs = "year".toList then some .year
  else if cs = "svc".toList then some .vendorSvc
  else none

/-- `span` (R73). -/
def readSpan (cs : List Char) : Option Sel :=
  if cs = "HB".toList then some .high
  else if cs = "LB".toList then some .low
  else if cs = "W".toList then some .full
  else none

/-- `BIT` (R73): one digit 0..7. -/
def readBit : List Char → Option (BitVec 3)
  | [c] => if 48 ≤ c.toNat ∧ c.toNat ≤ 55 then some (BitVec.ofNat 3 (c.toNat - 48)) else none
  | _ => none

/-- `span ["." BIT]`: the bit stands with `flag` and only with it (R73, W4). -/
def readOperand (k : Kind) (cs : List Char) : Option (Sel × Option (BitVec 3)) :=
  match cutAt '.' cs with
  | [span] => if k = .flag then none else (readSpan span).map fun s => (s, none)
  | [span, bit] =>
    if k = .flag then
      match readSpan span, readBit bit with
      | some s, some b => some (s, some b)
      | _, _ => none
    else none
  | _ => none

/-- `MTNAME` (R73): one of the names of R62. -/
def readMtName (cs : List Char) : Option MT3 :=
  let i := msgTypeNames.findIdx fun s => s.toList == cs
  if i < 8 then some (BitVec.ofNat 3 i) else none

/-- `["@" MTNAME]` (R73). -/
def readFilter : List (List Char) → Option Filter
  | [] => some none
  | [('@' :: mt)] => (readMtName mt).map some
  | _ => none

/-- A `desc` line, its indentation removed. R73 gives `PNAME` no lexical form: it is read as the token after `->`, whatever its
characters, a DESIGN CHOICE (log 19). -/
def readDescLine (line : List Char) : Option DescLine :=
  match tokens line with
  | mnem :: operand :: arrow :: pname :: rest =>
    if arrow = "->".toList then
      match readMnem mnem with
      | none => none
      | some k =>
        match readOperand k operand, readFilter rest with
        | some (s, b), some f => some ⟨k, s, b, String.ofList pname, f⟩
        | _, _ => none
    else none
  | _ => none

/-- The quotation mark of `STRING`. -/
def quoteMark : Char := Char.ofNat 34

/-- An `entry` line: `"entry" ID STRING ":"`. -/
def readEntryLine (line : List Char) : Option EntryText :=
  match cutAt quoteMark line with
  | [before, descr, after] =>
    match tokens before, tokens after with
    | [word, ident], [colon] =>
      if word = "entry".toList ∧ colon = ":".toList then
        match readDecimal ident with
        | some n => if n < 256 then some ⟨n, String.ofList descr, []⟩ else none
        | none => none
      else none
    | _, _ => none
  | _ => none

/-- One line added to the entries read so far, the latest first. -/
def readLine (acc : Option (List EntryText)) (line : List Char) : Option (List EntryText) :=
  match acc with
  | none => none
  | some es =>
    if (tokens line).isEmpty then some es
    else if line.head? = some ' ' then
      match readDescLine line, es with
      | some d, e :: rest => some ({ e with descs := e.descs ++ [d] } :: rest)
      | _, _ => none
    else (readEntryLine line).map fun e => e :: es

/-- `catalog` (R73): the entries in the order written, each `ID` at most once. R73 does not define NEWLINE: a line ends at a
line feed and nowhere else, and the last line may end with the text, a DESIGN CHOICE (log 19). -/
def readCatalog (text : String) : Option (List EntryText) :=
  match (cutAt '\n' text.toList).foldl readLine (some []) with
  | none => none
  | some es => if (es.map EntryText.ident).Nodup then some es.reverse else none

/-! ## Assembly (R73) -/

/-- A name added to `NAME` unless it is there: "in order of first appearance, from index 0". -/
def intern (names : List String) (s : String) : List String := if s ∈ names then names else names ++ [s]

/-- `NAME` of a text. -/
def internAll (es : List EntryText) : List String :=
  ((es.flatMap EntryText.descs).map DescLine.pname).foldl intern []

/-- The descriptor word of a line (R65). -/
def lineWord (names : List String) (d : DescLine) : Word32 :=
  (Desc.mk d.filter d.sel d.kind d.bit (BitVec.ofNat 10 (names.idxOf d.pname))).word

/-- The entry words: the j-th entry gets `DESCR = j` and `BASE` the number of `desc` lines before it (R73). -/
def placeEntries : Nat → Nat → List EntryText → Memory → Memory
  | _, _, [], m => m
  | j, base, e :: rest, m =>
    placeEntries (j + 1) (base + e.descs.length) rest
      (m.writeEntry (BitVec.ofNat 8 e.ident)
        (entryWord ⟨BitVec.ofNat 10 j, BitVec.ofNat 16 base, BitVec.ofNat 5 e.descs.length⟩))

/-- Whether the text fits the widths of R65 and R68. -/
def fitsRom (es : List EntryText) : Bool :=
  (internAll es).length ≤ 1024 && es.length ≤ 1024 && (es.flatMap EntryText.descs).length < 65536 &&
    es.all fun e => e.descs.length ≤ 31 && e.ident < 256

/-- The ROM of a catalog text; none where it does not fit the encoding or repeats an `ID`. -/
def assembleRom (es : List EntryText) : Option Memory :=
  if fitsRom es ∧ (es.map EntryText.ident).Nodup then
    some (placeEntries 0 0 es
      { entry := []
        desc := (es.flatMap EntryText.descs).map (lineWord (internAll es))
        name := internAll es
        descr := es.map EntryText.descr })
  else none

/-- The ROM of a textual catalog. -/
def romOfText (text : String) : Option Memory :=
  match readCatalog text with
  | none => none
  | some es => assembleRom es

end Sys2Proof.Machine
end

