-- ==== Sys2Proof/Machine/Ingress.lean ====
section
/-! DEFINITION. The ingress adapter: a hex string to the input port (40_frame_header.md R90, R91; 30_encoding.md R63). -/

namespace Sys2Proof.Machine

/-- `hexval` of a character, none where `isHex` fails (R63, R90, R91): `0-9`, `A-F`, `a-f`. -/
def hexVal (c : Char) : Option Nat :=
  if 48 ≤ c.toNat ∧ c.toNat ≤ 57 then some (c.toNat - 48)
  else if 65 ≤ c.toNat ∧ c.toNat ≤ 70 then some (c.toNat - 55)
  else if 97 ≤ c.toNat ∧ c.toNat ≤ 102 then some (c.toNat - 87)
  else none

/-- The digits of a string, none if one character is not a hexadecimal digit. -/
def hexDigits : List Char → Option (List Nat)
  | [] => some []
  | c :: rest =>
    match hexVal c, hexDigits rest with
    | some d, some ds => some (d :: ds)
    | _, _ => none

/-- A list of digits read as one big-endian number. -/
def hexNumber (ds : List Nat) : Nat := ds.foldl (fun acc d => acc * 16 + d) 0

/-- INGRESS (R90) on the characters of a string. -/
def ingressChars (cs : List Char) : FrameIn :=
  if cs.length ≠ 8 then .invalid
  else
    match hexDigits cs with
    | none => .invalid
    | some ds => .valid (BitVec.ofNat 32 (hexNumber ds))

/-- INGRESS (R90). -/
def ingress (s : String) : FrameIn := ingressChars s.toList

end Sys2Proof.Machine
end

