-- ==== Sys2Proof/Machine/HostOps.lean ====
section
/-! DEFINITION. What the host may do between steps: present frames, load a catalog, apply reset, read the result. -/

namespace Sys2Proof.Machine

/-- Present a port value (D2). -/
def present (f : FrameIn) (s : State) : State := { s with port := s.port ++ [f] }

/-- Present a hex string through the ingress adapter (R90). -/
def presentString (str : String) (s : State) : State := present (ingress str) s

/-- Every transaction not finished is abandoned, and no result exists (R230, I15). A transaction is one frame presented and its
one result (00_scope.md, glossary), so the frames that wait at the port are abandoned with the one in progress (log 13). -/
def abandon (s : State) : State := { s with port := [], txn := none, output := none }

/-- Load a catalog (R232, R233): the ROM is replaced whole, the load check must run again (R51, D25; log 24), and every
transaction not finished is abandoned. That a load abandons the waiting frames too is a DESIGN CHOICE (log 28). -/
def load (m : Memory) (s : State) : State := { abandon s with rom := m, boot := .checkPending }

/-- Set the parameters, at elaboration only: they too are checked with the catalog (R6, R69; log 24), and every transaction
not finished is abandoned, the waiting frames too, a DESIGN CHOICE (log 28). -/
def configure (c : Params) (s : State) : State := { abandon s with params := c, boot := .checkPending }

/-- Reset (R230): the catalog and the parameters are unchanged, every transaction not finished is abandoned, no result exists,
and the host must submit the frames again (I15; log 13). -/
def applyReset (s : State) : State := abandon s

/-- The free draws a rendering may consume: one for each property. -/
def drawsOf : Result → Nat
  | .decoded _ _ _ props => props.length
  | .unknownId _ _ => 0
  | .malformed => 0

/-- The host reads and renders the output register (R28, R182); before the first result there is none to read (D20). -/
def readOutput (s : State) : Option HostResult × State :=
  match s.output with
  | none => (none, s)
  | some r => (some (renderResult s.rom s.draws r), { s with draws := s.draws + drawsOf r })

end Sys2Proof.Machine
end

