-- ==== Sys2Proof/Machine/Transaction.lean ====
section
/-! DEFINITION. DECODE as the pure function the spec writes (41_catalog_lookup.md R115): the whole transaction at once. The
machine's steps give the same result (the refinement statements); only this fold is architectural (R117). -/

namespace Sys2Proof.Machine

/-- One iteration of the descriptor loop (R115). -/
def assembleOne (c : Params) (mt : MT3) (p : Bits16) (props : List Property) (i : Instr) : List Property :=
  if applies i.filter mt then insertProp i.name (instrValue c p i) props else props

/-- The descriptor loop (R113, R115). -/
def assemble (c : Params) (mt : MT3) (p : Bits16) (is : List Instr) (props : List Property) : List Property :=
  is.foldl (assembleOne c mt p) props

/-- The descriptors of an entry (R68), none where the words are not all there or not all legal (a refused catalog). -/
def entryInstrs (m : Memory) (e : EntryRec) : Option (List Instr) :=
  if (entryWords m e).length = e.n.toNat then decodeAll (entryWords m e) else none

/-- DECODE (R115); none only for a catalog the load check refuses. -/
def decodeFrame (c : Params) (m : Memory) : FrameIn → Option Result
  | .invalid => some .malformed
  | .valid w =>
    match catRead m (frameId w) with
    | none => some (.unknownId (frameMt w) (frameId w))
    | some e =>
      (entryInstrs m e).map fun is =>
        .decoded (frameMt w) (frameId w) e.descr (assemble c (frameMt w) (framePayload w) is [])

/-- The number of steps of a transaction: 1 where there is no descriptor loop, and the lookup, `n` visits and the closing
step for a known identifier (R118). -/
def stepsOf (m : Memory) : FrameIn → Nat
  | .invalid => 1
  | .valid w =>
    match catRead m (frameId w) with
    | none => 1
    | some e => e.n.toNat + 2

/-- The steps of a stream of frames. -/
def stepsOfStream (m : Memory) (fs : List FrameIn) : Nat := (fs.map (stepsOf m)).sum

end Sys2Proof.Machine
end

