-- ==== Sys2Proof/Safety.lean ====
section
/-! DEFINITION. What statements about this machine speak of: the spec's own view of the frame bytes, the invariant of every
reachable state, the actions of the host, the catalogs the spec admits (41_catalog_lookup.md R119), and the load check
as the spec words it (30_encoding.md R69). -/

namespace Sys2Proof.Machine

/-! ## The frame bytes a descriptor reads, straight from R43 and R67 -/

/-- `HB = FRAME[15:8]`, `LB = FRAME[7:0]`. -/
def Txn.halfByte (t : Txn) : Half → Bits8
  | .high => t.frame.extractLsb' 8 8
  | .low => t.frame.extractLsb' 0 8

/-- `P = FRAME[15:0]`. -/
def Txn.fullWord (t : Txn) : Bits16 := t.frame.extractLsb' 0 16

/-- The state after a descriptor that applied (R115): `V`, `Rv`, `PROPS` written, `k` advanced by 1, nothing else changed. -/
def State.delivered (s : State) (t : Txn) (name : NameIdx) (v : Narrowed) (r : Value) : State :=
  { s with txn := some ⟨t.frame, t.entry, t.k + 1, some v, some r, insertProp name r t.props⟩ }

/-- `s` with another `LATENCY` (R235). -/
def State.withLatency (s : State) (l : Nat) : State := { s with params := { s.params with latency := l } }

/-- The value a property mapping gives a name. -/
def valueOf (props : List Property) (name : NameIdx) : Option Value :=
  (props.find? fun p => p.name == name).map Property.value

/-- The names of a property mapping, in order. -/
def namesOf (props : List Property) : List NameIdx := props.map Property.name

/-! ## F8.8 as the spec writes it (R146-R148), on exact rationals -/

/-- `x` of R146 and R147. -/
def f88Exact (mode : F88NegMode) (v : Bits16) : Rat :=
  if v.getLsbD 15 then
    match mode with
    | .twosComplement => (v.toInt : Rat) / 256
    | .invertHbPlusFraction =>
      -(((~~~ (v.extractLsb' 8 8)).toNat : Rat) + ((v.extractLsb' 0 8).toNat : Rat) / 256)
  else ((v.extractLsb' 8 8).toNat : Rat) + ((v.extractLsb' 0 8).toNat : Rat) / 256

/-- `c` of R148 from `x`. -/
def f88Centi (tie : F88Tie) (x : Rat) : Int :=
  match tie with
  | .halfAwayFromZero => ((SignType.sign (100 * x) : SignType) : Int) * ⌊|100 * x| + 1 / 2⌋
  | .halfTowardPosInf => ⌊100 * x + 1 / 2⌋

/-! ## The load check as R69 words it -/

/-- W1-W7 on one descriptor word, field by field. -/
def wordPasses (maxNames : Nat) (w : Word32) : Prop :=
  (kindField w).toNat ≤ 9 ∧
  selField w ≠ 3#2 ∧
  ((kindField w).toNat ≤ 2 → selField w = 1#2 ∨ selField w = 2#2) ∧
  (2 < (kindField w).toNat → selField w = 0#2) ∧
  (kindField w ≠ 0#4 → bitField w = 0#3) ∧
  (fvField w = 0#1 → fmtField w = 0#3) ∧
  rsv0Field w = 0#3 ∧ rsv1Field w = 0#6 ∧
  (nameField w).toNat < maxNames

/-- A descriptor word fails the named check of W1-W7, field by field; W8 and W9 concern no single word. -/
def wordFails (maxNames : Nat) (w : Word32) : Check → Prop
  | .w1 => 9 < (kindField w).toNat
  | .w2 => selField w = 3#2
  | .w3 => ((kindField w).toNat ≤ 2 ∧ selField w ≠ 1#2 ∧ selField w ≠ 2#2) ∨ (2 < (kindField w).toNat ∧ selField w ≠ 0#2)
  | .w4 => kindField w ≠ 0#4 ∧ bitField w ≠ 0#3
  | .w5 => fvField w = 0#1 ∧ fmtField w ≠ 0#3
  | .w6 => rsv0Field w ≠ 0#3 ∨ rsv1Field w ≠ 0#6
  | .w7 => maxNames ≤ (nameField w).toNat
  | .w8 | .w9 => False

/-- W8 fails on one identifier: `PRESENT = 0` and another bit set, or `PRESENT = 1` and one of its three bounds broken. -/
def entryFails (c : Params) (m : Memory) (id : DataId) : Prop :=
  match catRead m id with
  | none => m.entryAt id ≠ 0#32
  | some e => c.maxDesc < e.n.toNat ∨ m.desc.length < e.base.toNat + e.n.toNat ∨ m.descr.length ≤ e.descr.toNat

/-- W9 on two descriptor words: the same `NAME` and overlapping filters. -/
def wordsCollide (w w' : Word32) : Prop :=
  nameField w = nameField w' ∧ (fvField w = 0#1 ∨ fvField w' = 0#1 ∨ fmtField w = fmtField w')

/-- W1-W9 on one identifier. -/
def identPasses (c : Params) (m : Memory) (id : DataId) : Prop :=
  match catRead m id with
  | none => m.entryAt id = 0#32
  | some e =>
    e.n.toNat ≤ c.maxDesc ∧ e.base.toNat + e.n.toNat ≤ m.desc.length ∧ e.descr.toNat < m.descr.length ∧
    (∀ k, k < e.n.toNat → ∃ w, m.descAt (e.base.toNat + k) = some w ∧ wordPasses m.maxNames w) ∧
    (c.rejectCollision = true → ∀ j k w w', j < k → k < e.n.toNat →
      m.descAt (e.base.toNat + j) = some w → m.descAt (e.base.toNat + k) = some w' → ¬ wordsCollide w w')

/-! ## The catalogs the spec admits (R119) -/

/-- One pinned fact of R119: a source frame, a property it must give, the value the source's host sees (95_test_vectors.md
S2-S6), and the descriptor that gives it. -/
structure Pin where
  frame : Word32
  name : String
  value : Value
  rendered : Rendered
  shape : Filter → NameIdx → Instr

/-- K1-K5 (R119). -/
def pins : List Pin :=
  [ ⟨0x4000CCCC#32, "fault", .bool false, .boolean false, fun f n => .flag f .low 0 n⟩,
    ⟨0x4000CCCC#32, "dhw_active", .bool true, .boolean true, fun f n => .flag f .low 2 n⟩,
    ⟨0x4000CCCC#32, "flame_on", .bool true, .boolean true, fun f n => .flag f .low 3 n⟩,
    ⟨0x4000CCCC#32, "diagnostic", .bool true, .boolean true, fun f n => .flag f .low 6 n⟩,
    ⟨0x10312230#32, "ch_setpoint_high", .int 48, .integer 48, fun f n => .s8 f .low n⟩,
    ⟨0x10312230#32, "ch_setpoint_low", .int 34, .integer 34, fun f n => .s8 f .high n⟩,
    ⟨0x3015030D#32, "date", .date 3 13, .string "march, 13", fun f n => .date f n⟩,
    ⟨0x401607E5#32, "year", .int 2021, .integer 2021, fun f n => .year f n⟩,
    ⟨0x20840101#32, "remeha_service_required", .service .typeA, .string "Type A", fun f n => .svc f n⟩ ]

/-- The pinned descriptor stands in the entry, with no filter or the frame's message type. -/
def pinDescribed (m : Memory) (pin : Pin) : Bool :=
  match catRead m (frameId pin.frame) with
  | none => false
  | some e =>
    match entryInstrs m e with
    | none => false
    | some is => is.any fun i =>
        i == pin.shape i.filter i.name && m.nameAt i.name == pin.name &&
          (i.filter == none || i.filter == some (frameMt pin.frame))

/-- The pinned descriptor is the one descriptor of the entry that applies to the frame and has the property's name. -/
def pinSole (m : Memory) (pin : Pin) : Bool :=
  match catRead m (frameId pin.frame) with
  | none => false
  | some e =>
    match entryInstrs m e with
    | none => false
    | some is =>
      match is.filter fun i => applies i.filter (frameMt pin.frame) && m.nameAt i.name == pin.name with
      | [i] => i == pin.shape i.filter i.name
      | _ => false

/-- The pinned property appears with its value: `PROPS ⊇ ...`. -/
def pinShown (c : Params) (m : Memory) (pin : Pin) : Bool :=
  match decodeFrame c m (.valid pin.frame) with
  | some (.decoded _ _ _ props) => props.any fun p => m.nameAt p.name == pin.name && p.value == pin.value
  | _ => false

/-- A catalog the spec admits: parameters in D19's range, accepted by the load check, and K1-K5 (R119; log 26). -/
def admitted (c : Params) (m : Memory) : Bool :=
  c.legal && m.wf && (loadCheck c m).isNone && pins.all fun pin => pinDescribed m pin && pinShown c m pin

/-! ## The invariant of every reachable state -/

/-- A transaction in progress is on the identifier's own entry, and its `PROPS` is DECODE's fold of the descriptors
visited so far (R113, R115). -/
structure TxnSound (c : Params) (m : Memory) (t : Txn) : Prop where
  entry : catRead m t.ident = some t.entry
  index : t.k ≤ t.entry.n.toNat
  props : ∃ is, entryInstrs m t.entry = some is ∧ t.props = assemble c t.mt t.payload (is.take t.k) []

/-- The invariant: a canonical ROM; accepted in operation; nothing in progress before that; a sound transaction; and an
output register that holds some frame's result and nothing else (R28). -/
structure Inv (s : State) : Prop where
  canonical : s.rom.wf = true
  checked : s.boot = .inOperation → loadCheck s.params s.rom = none
  quiet : s.boot = .checkPending → s.txn = none ∧ s.output = none
  txn : ∀ t, s.txn = some t → TxnSound s.params s.rom t
  output : ∀ r, s.output = some r → ∃ f, decodeFrame s.params s.rom f = some r

/-! ## The host's actions and the reachable states -/

/-- What may happen between two steps. -/
inductive HostAction where
  | present (f : FrameIn)
  | presentString (str : String)
  | load (m : Memory)
  | configure (c : Params)
  | reset
  | readOutput

/-- A loaded ROM is in canonical form (the interface loads no other). -/
def HostAction.legal : HostAction → Bool
  | .load m => m.wf
  | .present _ | .presentString _ | .configure _ | .reset | .readOutput => true

def HostAction.apply (a : HostAction) (s : State) : State :=
  match a with
  | .present f => Sys2Proof.Machine.present f s
  | .presentString str => Sys2Proof.Machine.presentString str s
  | .load m => Sys2Proof.Machine.load m s
  | .configure c => Sys2Proof.Machine.configure c s
  | .reset => applyReset s
  | .readOutput => (Sys2Proof.Machine.readOutput s).2

/-- The states steps and host actions reach from `State.reset`. -/
inductive Reachable : State → Prop where
  | reset : Reachable State.reset
  | step {s s' : State} : Reachable s → step s = .next s' → Reachable s'
  | host {s : State} (a : HostAction) : Reachable s → a.legal = true → Reachable (a.apply s)

/-- `n` steps of this machine, stopping at the first fault or refusal: the host's run (Laws/Step.lean, `runSteps_eq_core`). -/
def runSteps : Nat → State → Host.Outcome State Fault Refusal
  | 0, s => .next s
  | n + 1, s =>
    match step s with
    | .next s' => runSteps n s'
    | .fault r => .fault r
    | .refused r => .refused r

/-- The block is ready for frames: in operation, no transaction in progress. -/
def State.ready (s : State) : Prop := s.boot = .inOperation ∧ s.txn = none

end Sys2Proof.Machine
end

