-- ==== Sys2Proof/Certificates/Slice0/Obligations.lean ====
section
/-! DEFINITION. The statements for the provers, from the numbered rules of spec/. -/

open Sys2Proof Sys2Proof.Machine

/-! ## Reset and boot -/

/-- R230, R6: the state right after reset has no transaction and no result, has not checked its catalog, and its parameters
with a default stand at it. That no result is the value none is the model's reading (log 10). -/
def Obligations.ResetStateHasNoResult : Prop :=
  State.reset.txn = none ∧ State.reset.output = none ∧ State.reset.boot = .checkPending ∧
  State.reset.params.negMode = .twosComplement ∧ State.reset.params.tie = .halfAwayFromZero ∧
  State.reset.params.guard = .rangeCheck ∧ State.reset.params.rejectCollision = false

/-- The invariant holds right after reset. -/
def Obligations.ResetSatisfiesInv : Prop := Inv State.reset

/-- R230, I15: reset leaves the ROM and the parameters, abandons every transaction not finished (the one in progress and the
frames presented and not yet taken: a transaction is one frame presented and its one result), and leaves no result; no number
of steps gives a result for an abandoned frame; and the first of any frames presented after it gives the result the same
frame gives at any other time. The steps are the model's (log 1), and so is the list of waiting frames (log 9). -/
def Obligations.ResetChangesNoLaterResult : Prop :=
  ∀ s : State, (applyReset s).rom = s.rom ∧ (applyReset s).params = s.params ∧ (applyReset s).txn = none ∧
    (applyReset s).port = [] ∧ (applyReset s).output = none ∧
    (s.boot = .inOperation → ∀ n, runSteps n (applyReset s) = .next (applyReset s)) ∧
    (Inv s → s.boot = .inOperation → ∀ f rest,
      ∃ r, decodeFrame s.params s.rom f = some r ∧
        runSteps (stepsOf s.rom f) { applyReset s with port := f :: rest } =
          .next { applyReset s with port := rest, output := some r })

/-- R233, R203: before the block is in operation a step runs the load check: it starts operation, or names what
failed. That it is one step is the model's choice (log 6). -/
def Obligations.BootStepRunsLoadCheck : Prop :=
  ∀ s : State, s.boot = .checkPending →
    (loadCheck s.params s.rom = none → step s = .next { s with boot := .inOperation }) ∧
    (∀ e, loadCheck s.params s.rom = some e → step s = .refused (.catalogRefused e))

/-- R51, D25: after a load nothing happens before the new catalog has passed its own check. What a load drops is log 24;
that it abandons the waiting frames too is the model's choice (log 28). -/
def Obligations.LoadedCatalogIsCheckedFirst : Prop :=
  ∀ (m : Memory) (s s' : State), step (load m s) = .next s' →
    loadCheck s.params m = none ∧ s'.rom = m ∧ s'.boot = .inOperation ∧ s'.txn = none ∧ s'.output = none ∧
      s'.port = []

/-! ## The load check -/

/-- R69, W1-W7: the check of one descriptor word is the spec's, field by field. -/
def Obligations.WordCheckIsFieldwise : Prop :=
  ∀ (maxNames : Nat) (w : Word32), checkDescWord maxNames w = none ↔ wordPasses maxNames w

/-- R69: the load check accepts exactly the catalogs all of whose identifiers pass W1-W9. -/
def Obligations.LoadCheckAcceptsExactly : Prop :=
  ∀ (c : Params) (m : Memory), m.wf = true → (loadCheck c m = none ↔ ∀ id : DataId, identPasses c m id)

/-- R69: a refusal names an identifier that fails, and the check that fails: without a descriptor index it is W8, and the
entry word fails it; with index `k` it is one of W1-W7 and word `k` fails it, or it is W9, asked for, and word `k`
collides with an earlier one. Which of several failures is named is the model's choice (log 6) and is not stated. -/
def Obligations.RefusalNamesFailingCheck : Prop :=
  ∀ (c : Params) (m : Memory) (e : LoadError), m.wf = true → loadCheck c m = some e →
    ∃ id : DataId, id.toNat = e.ident ∧ ¬ identPasses c m id ∧
      (e.desc = none → e.check = .w8 ∧ entryFails c m id) ∧
      ∀ k, e.desc = some k → ∃ entry w, catRead m id = some entry ∧ k < entry.n.toNat ∧
        m.descAt (entry.base.toNat + k) = some w ∧
        (wordFails m.maxNames w e.check ∨
          (e.check = .w9 ∧ c.rejectCollision = true ∧
            ∃ j w', j < k ∧ m.descAt (entry.base.toNat + j) = some w' ∧ wordsCollide w' w))

/-- R64, W3, W4: an abstract descriptor denotes an instruction exactly when its kind has the selector of its width and a bit
index exactly for FLAG, which is what the model's two checks say, and it is then that instruction's descriptor. -/
def Obligations.AbstractDescriptorDenotes : Prop :=
  ∀ d : Desc,
    ((∃ i, d.toInstr = some i) ↔
      ((d.kind ∈ [Kind.flag, .u8, .s8] → d.sel = .high ∨ d.sel = .low) ∧
        (d.kind ∉ [Kind.flag, .u8, .s8] → d.sel = .full) ∧
        (d.kind = .flag ↔ ∃ b, d.bit = some b))) ∧
    ((∃ i, d.toInstr = some i) ↔ (widthPaired d.kind d.sel = true ∧ d.bitPaired = true)) ∧
    ∀ i : Instr, d.toInstr = some i ↔ i.toDesc = d

/-! ## Encodings -/

/-- R65-R67: decoding the word of an instruction gives the instruction back, every operand at every value. -/
def Obligations.DecodeEncodeAgree : Prop :=
  ∀ i : Instr, decode (encode i) = .ok i

/-- R65, R70: a word that decodes is the word of its instruction: no bit of it is dropped. -/
def Obligations.DecodedWordIsItsEncoding : Prop :=
  ∀ (w : Word32) (i : Instr), decode w = .ok i → encode i = w

/-- Words of 30_encoding.md R65 and 95_test_vectors.md, each with its instruction or the check it fails. -/
def Obligations.ListedWordsDecode : Prop :=
  decode 0x000112A0#32 = .ok (.flag (some 4) .low 2 1) ∧
  decode 0x00000011#32 = .ok (.u8 none .high 0) ∧
  decode 0x00030022#32 = .ok (.s8 none .low 3) ∧
  decode 0x00020004#32 = .ok (.s16 none 2) ∧
  decode 0x00010005#32 = .ok (.f88 none 1) ∧
  decode 0x00000006#32 = .ok (.daytime none 0) ∧
  decode 0x00030009#32 = .ok (.svc none 3) ∧
  decode 0x0000000A#32 = .error .w1 ∧
  decode 0x00000030#32 = .error .w2 ∧
  decode 0x00000013#32 = .error .w3 ∧
  decode 0x00000045#32 = .error .w4 ∧
  decode 0x00000405#32 = .error .w5 ∧
  decode 0x04000005#32 = .error .w6

/-- R41, R68, R232: the fields of an entry word are its bits (`PRESENT` 31, `N` 30:26, `DESCR` 25:16, `BASE` 15:0), for the
word written and for every word read; a loaded entry word reads back as its record, every other identifier reads as before,
and the ROM stays in canonical form. -/
def Obligations.LoadedEntryReadsBack : Prop :=
  (∀ e : EntryRec, (entryWord e).getLsbD 31 = true ∧ (entryWord e).extractLsb' 26 5 = e.n ∧
    (entryWord e).extractLsb' 16 10 = e.descr ∧ (entryWord e).extractLsb' 0 16 = e.base) ∧
  (∀ (m : Memory) (id : DataId),
    ((m.entryAt id).getLsbD 31 = false → catRead m id = none) ∧
    ((m.entryAt id).getLsbD 31 = true → catRead m id = some
      { n := (m.entryAt id).extractLsb' 26 5
        descr := (m.entryAt id).extractLsb' 16 10
        base := (m.entryAt id).extractLsb' 0 16 })) ∧
  ∀ (m : Memory) (id : DataId) (e : EntryRec), m.wf = true →
    (m.writeEntry id (entryWord e)).wf = true ∧
    catRead (m.writeEntry id (entryWord e)) id = some e ∧
    catRead (m.writeEntry id unlistedEntry) id = none ∧
    ∀ id', id' ≠ id → catRead (m.writeEntry id (entryWord e)) id' = catRead m id'

/-- R73: the ROM of a catalog text. `NAME` lists the property names in order of first appearance; each `desc` line is one
word of `DESC`, in order; the j-th entry has `DESCR = j`, `BASE` the number of lines before it, `N` its own number of
lines; an identifier not written reads 0. -/
def Obligations.AssembledTextLayout : Prop :=
  ∀ (es : List EntryText) (m : Memory), assembleRom es = some m →
    m.wf = true ∧
    m.name = (((es.flatMap EntryText.descs).map DescLine.pname).reverse.dedup).reverse ∧
    m.descr = es.map EntryText.descr ∧
    m.desc = (es.flatMap EntryText.descs).map (lineWord m.name) ∧
    (∀ (j : Nat) (e : EntryText), es[j]? = some e → ∃ r, catRead m (BitVec.ofNat 8 e.ident) = some r ∧
      r.descr.toNat = j ∧ r.n.toNat = e.descs.length ∧
      r.base.toNat = ((es.take j).flatMap EntryText.descs).length) ∧
    (∀ id : DataId, (∀ e ∈ es, e.ident ≠ id.toNat) → m.entryAt id = 0#32)

/-! ## The frame -/

/-- R43, R60, R92, R93, R94: the header fields of a frame, from its four bytes. -/
def Obligations.HeaderFieldsOfBytes : Prop :=
  ∀ (b0 b1 hb lb : Bits8) (w : Word32),
    w.toNat = b0.toNat * 2 ^ 24 + b1.toNat * 2 ^ 16 + hb.toNat * 2 ^ 8 + lb.toNat →
    frameB0 w = b0 ∧ (frameMt w).toNat = b0.toNat / 16 % 8 ∧ frameId w = b1 ∧
      (framePayload w).toNat = hb.toNat * 256 + lb.toNat ∧
      narrow (framePayload w) .high = .byte hb ∧ narrow (framePayload w) .low = .byte lb ∧
      narrow (framePayload w) .full = .word (framePayload w)

/-- R61: bit 31 and bits 27:24 of a frame affect no result. -/
def Obligations.IgnoredHeaderBits : Prop :=
  ∀ (c : Params) (m : Memory) (w w' : Word32),
    (∀ i, i < 32 → i ≠ 31 → ¬ (24 ≤ i ∧ i ≤ 27) → w.getLsbD i = w'.getLsbD i) →
    decodeFrame c m (.valid w) = decodeFrame c m (.valid w')

/-- R63, R90: eight hexadecimal digits, of either case, are one big-endian number. -/
def Obligations.IngressOfHexDigits : Prop :=
  ∀ (cs : List Char) (d : Fin 8 → Nat), cs.length = 8 →
    (∀ i : Fin 8, ∃ c, cs[i.val]? = some c ∧ d i < 16 ∧
      (c = "0123456789abcdef".toList.getD (d i) 'x' ∨ c = "0123456789ABCDEF".toList.getD (d i) 'x')) →
    ∃ w, ingressChars cs = .valid w ∧ w.toNat = ∑ i : Fin 8, d i * 16 ^ (7 - i.val)

/-- R90, R91: a string is malformed exactly when it has not 8 characters or one of them is no hexadecimal digit. -/
def Obligations.IngressRejectsExactly : Prop :=
  ∀ cs : List Char, ingressChars cs = .invalid ↔
    (cs.length ≠ 8 ∨ ∃ c ∈ cs, c ∉ "0123456789abcdefABCDEF".toList)

/-! ## One step -/

/-- R113, R115: in a transaction with a descriptor left, a step is the meaning of the instruction that `DESC[BASE + k]`
decodes to, and nothing around it (`exec` itself advances `k`). One descriptor a step is the model's choice (log 1). -/
def Obligations.StepRunsDecodedInstr : Prop :=
  ∀ (s : State) (t : Txn) (w : Word32) (i : Instr), s.boot = .inOperation → s.txn = some t →
    t.k < t.entry.n.toNat → s.rom.desc[t.entry.base.toNat + t.k]? = some w → decode w = .ok i →
    step s = exec i s

/-- R90, R110, R115, R201, R202, R205: the outcomes of taking a frame, in their order: malformed; unknown identifier,
whatever the payload; a transaction opened at `k = 0` with no property. Its being a step of its own is the model's choice
(log 1), as is the list of waiting port values (log 9). -/
def Obligations.AcceptedFrameOutcomes : Prop :=
  ∀ (s : State) (rest : List FrameIn), s.ready →
    (s.port = .invalid :: rest → step s = .next { s with port := rest, output := some .malformed }) ∧
    (∀ w, s.port = .valid w :: rest →
      (catRead s.rom (w.extractLsb' 16 8) = none →
        step s = .next { s with port := rest, output := some (.unknownId (w.extractLsb' 28 3) (w.extractLsb' 16 8)) }) ∧
      (∀ e, catRead s.rom (w.extractLsb' 16 8) = some e →
        step s = .next { s with port := rest, txn := some ⟨w, e, 0, none, none, []⟩ }))

/-- R115, R111, R28: when every descriptor is visited a step puts the DECODED result in the output register and ends the
transaction. Its being a step of its own is the model's choice (log 1). -/
def Obligations.FinishedTransactionGivesResult : Prop :=
  ∀ (s : State) (t : Txn), s.boot = .inOperation → s.txn = some t → t.k = t.entry.n.toNat →
    step s = .next { s with
      txn := none
      output := some (.decoded (t.frame.extractLsb' 28 3) (t.frame.extractLsb' 16 8) t.entry.descr t.props) }

/-- R20, R24, R47: no step writes the ROM or a parameter. That the parameters are fields of the state a step could write is
the model's reading (log 2). -/
def Obligations.StepWritesNoConfiguration : Prop :=
  ∀ s s' : State, step s = .next s' →
    s'.rom = s.rom ∧ s'.params = s.params ∧ (∀ id, s'.rom.entryAt id = s.rom.entryAt id) ∧
      (∀ j, s'.rom.descAt j = s.rom.descAt j)

/-- R235: no step depends on `LATENCY`. -/
def Obligations.LatencyChangesNothing : Prop :=
  ∀ (s : State) (l : Nat),
    (∀ s', step s = .next s' → step (s.withLatency l) = .next (s'.withLatency l)) ∧
    (∀ r, step s = .refused r → step (s.withLatency l) = .refused r)

/-! ## The instructions -/

/-- R112, R113: a descriptor whose filter names another message type advances `k` and does nothing else. -/
def Obligations.FilteredDescriptorIsSkipped : Prop :=
  ∀ (i : Instr) (s : State) (t : Txn) (m : MT3), s.txn = some t → i.filter = some m →
    m ≠ t.frame.extractLsb' 28 3 → exec i s = .next { s with txn := some { t with k := t.k + 1 } }

/-- R141: FLAG writes the bit of the half it selects. -/
def Obligations.FlagDeliversBit : Prop :=
  ∀ (f : Filter) (h : Half) (bit : BitVec 3) (name : NameIdx) (s : State) (t : Txn), s.txn = some t →
    (f = none ∨ f = some (t.frame.extractLsb' 28 3)) →
    exec (.flag f h bit name) s =
      .next (s.delivered t name (.byte (t.halfByte h)) (.bool ((t.halfByte h).getLsbD bit.toNat)))

/-- R142: U8 writes the unsigned value of the half it selects. -/
def Obligations.UnsignedByteDelivers : Prop :=
  ∀ (f : Filter) (h : Half) (name : NameIdx) (s : State) (t : Txn), s.txn = some t →
    (f = none ∨ f = some (t.frame.extractLsb' 28 3)) →
    exec (.u8 f h name) s = .next (s.delivered t name (.byte (t.halfByte h)) (.int (t.halfByte h).toNat))

/-- R143: S8 writes the two's complement value of the half it selects. -/
def Obligations.SignedByteDelivers : Prop :=
  ∀ (f : Filter) (h : Half) (name : NameIdx) (s : State) (t : Txn), s.txn = some t →
    (f = none ∨ f = some (t.frame.extractLsb' 28 3)) →
    exec (.s8 f h name) s = .next (s.delivered t name (.byte (t.halfByte h))
      (.int (if (t.halfByte h).getLsbD 7 then ((t.halfByte h).toNat : Int) - 256 else (t.halfByte h).toNat)))

/-- R144: U16 writes the unsigned payload. -/
def Obligations.UnsignedWordDelivers : Prop :=
  ∀ (f : Filter) (name : NameIdx) (s : State) (t : Txn), s.txn = some t →
    (f = none ∨ f = some (t.frame.extractLsb' 28 3)) →
    exec (.u16 f name) s = .next (s.delivered t name (.word t.fullWord) (.int t.fullWord.toNat))

/-- R145: S16 writes the two's complement payload. -/
def Obligations.SignedWordDelivers : Prop :=
  ∀ (f : Filter) (name : NameIdx) (s : State) (t : Txn), s.txn = some t →
    (f = none ∨ f = some (t.frame.extractLsb' 28 3)) →
    exec (.s16 f name) s = .next (s.delivered t name (.word t.fullWord)
      (.int (if t.fullWord.getLsbD 15 then (t.fullWord.toNat : Int) - 65536 else t.fullWord.toNat)))

/-- R146, R147, R148: F88 writes the exact value in hundredths, rounded by `F88_TIE`, for both settings of `F88_NEG_MODE`;
the result lies in -12800..12800. -/
def Obligations.FixedPointDelivers : Prop :=
  ∀ (f : Filter) (name : NameIdx) (s : State) (t : Txn), s.txn = some t →
    (f = none ∨ f = some (t.frame.extractLsb' 28 3)) →
    exec (.f88 f name) s = .next (s.delivered t name (.word t.fullWord)
      (.fix2 (f88Centi s.params.tie (f88Exact s.params.negMode t.fullWord)))) ∧
    -12800 ≤ f88Centi s.params.tie (f88Exact s.params.negMode t.fullWord) ∧
    f88Centi s.params.tie (f88Exact s.params.negMode t.fullWord) ≤ 12800

/-- R149, R150: DAYTIME writes day, hour and minute where they are in range or `DT_GUARD` is ALWAYS_RENDER, else the raw
payload. -/
def Obligations.DaytimeDelivers : Prop :=
  ∀ (f : Filter) (name : NameIdx) (s : State) (t : Txn), s.txn = some t →
    (f = none ∨ f = some (t.frame.extractLsb' 28 3)) →
    ∃ (day : BitVec 3) (hour : BitVec 5) (minute : Bits8),
      day.toNat = t.fullWord.toNat / 8192 ∧ hour.toNat = t.fullWord.toNat / 256 % 32 ∧
      minute.toNat = t.fullWord.toNat % 256 ∧
      exec (.daytime f name) s = .next (s.delivered t name (.word t.fullWord)
        (if s.params.guard = .alwaysRender ∨ (hour.toNat ≤ 23 ∧ minute.toNat ≤ 59) then .daytime day hour minute
         else .int t.fullWord.toNat))

/-- R151, R152: DATE writes month and day where they are in range or `DT_GUARD` is ALWAYS_RENDER, else the raw payload. -/
def Obligations.DateDelivers : Prop :=
  ∀ (f : Filter) (name : NameIdx) (s : State) (t : Txn), s.txn = some t →
    (f = none ∨ f = some (t.frame.extractLsb' 28 3)) →
    ∃ month day : Bits8, month.toNat = t.fullWord.toNat / 256 ∧ day.toNat = t.fullWord.toNat % 256 ∧
      exec (.date f name) s = .next (s.delivered t name (.word t.fullWord)
        (if s.params.guard = .alwaysRender ∨ (month.toNat ≤ 12 ∧ 1 ≤ day.toNat ∧ day.toNat ≤ 31) then .date month day
         else .int t.fullWord.toNat))

/-- R153: YEAR writes the unsigned payload. -/
def Obligations.YearDelivers : Prop :=
  ∀ (f : Filter) (name : NameIdx) (s : State) (t : Txn), s.txn = some t →
    (f = none ∨ f = some (t.frame.extractLsb' 28 3)) →
    exec (.year f name) s = .next (s.delivered t name (.word t.fullWord) (.int t.fullWord.toNat))

/-- R154: VENDOR_SVC writes NONE where the high byte is 0, else the type its low nibble names. -/
def Obligations.ServiceCodeDelivers : Prop :=
  ∀ (f : Filter) (name : NameIdx) (s : State) (t : Txn), s.txn = some t →
    (f = none ∨ f = some (t.frame.extractLsb' 28 3)) →
    exec (.svc f name) s = .next (s.delivered t name (.word t.fullWord) (.service
      (if t.fullWord.toNat / 256 = 0 then .none
       else if t.fullWord.toNat % 16 = 1 then .typeA
       else if t.fullWord.toNat % 16 = 2 then .typeB
       else if t.fullWord.toNat % 16 = 3 then .typeC
       else .unknown)))

/-- The frame of every instruction: the configuration, the boot phase, the port, the output register and the draw counter
are unchanged, every ROM slot reads as before; in the transaction the frame and the entry are unchanged, `k` advances by
1, every other name keeps its value, and the names before it keep their places. The draw counter is the
model's own field (log 12). -/
def Obligations.InstructionFrame : Prop :=
  ∀ (i : Instr) (s s' : State), exec i s = .next s' →
    s'.params = s.params ∧ s'.boot = s.boot ∧ s'.port = s.port ∧ s'.output = s.output ∧ s'.draws = s.draws ∧
    (∀ id, s'.rom.entryAt id = s.rom.entryAt id) ∧ (∀ j, s'.rom.descAt j = s.rom.descAt j) ∧
    s'.rom.name = s.rom.name ∧ s'.rom.descr = s.rom.descr ∧
    ∃ t t', s.txn = some t ∧ s'.txn = some t' ∧ t'.frame = t.frame ∧ t'.entry = t.entry ∧ t'.k = t.k + 1 ∧
      (∀ n, n ≠ i.name → valueOf t'.props n = valueOf t.props n) ∧ namesOf t.props <+: namesOf t'.props ∧
      (∀ n ∈ namesOf t'.props, n ∈ namesOf t.props ∨ n = i.name)

/-- The model's choice (log 14): with no transaction in progress an instruction has no operands and stops by name. -/
def Obligations.NoTransactionStops : Prop :=
  ∀ (i : Instr) (s : State), s.txn = none → exec i s = .fault .noTransaction

/-! ## Result assembly -/

/-- R114: an insertion writes the value of its name, keeps every other, keeps the places of the names there are, appends a
new name at the end, and keeps names unique. -/
def Obligations.InsertIsLastWriteWins : Prop :=
  ∀ (props : List Property) (name : NameIdx) (v : Value),
    valueOf (insertProp name v props) name = some v ∧
    (∀ n, n ≠ name → valueOf (insertProp name v props) n = valueOf props n) ∧
    (name ∈ namesOf props → namesOf (insertProp name v props) = namesOf props) ∧
    (name ∉ namesOf props → insertProp name v props = props ++ [⟨name, v⟩]) ∧
    ((namesOf props).Nodup → (namesOf (insertProp name v props)).Nodup)

/-- R113, R114, R117: the fold of the descriptor loop is a property of the set of independent conversions: the names stand
in order of first appearance among the descriptors that apply, and each has the conversion of the last one that has it. -/
def Obligations.AssemblyIsOrderOfConversions : Prop :=
  ∀ (c : Params) (mt : MT3) (p : Bits16) (is : List Instr),
    namesOf (assemble c mt p is []) =
      (((is.filter fun i => applies i.filter mt).map Instr.name).reverse.dedup).reverse ∧
    ∀ n, valueOf (assemble c mt p is []) n =
      ((is.filter fun i => applies i.filter mt).reverse.find? fun i => i.name == n).map (instrValue c p)

/-- R114, W9: under `REJECT_NAME_COLLISION` no collision reaches a transaction: every descriptor that applies gives its own
property, in catalog order. -/
def Obligations.RejectedCollisionsNeverOverwrite : Prop :=
  ∀ (c : Params) (m : Memory) (id : DataId) (e : EntryRec) (is : List Instr) (mt : MT3) (p : Bits16),
    loadCheck c m = none → c.rejectCollision = true → catRead m id = some e → entryInstrs m e = some is →
    assemble c mt p is [] =
      (is.filter fun i => applies i.filter mt).map fun i => ⟨i.name, instrValue c p i⟩

/-- R118, R236: in an accepted catalog a result has at most `n <= MAX_DESC` properties, with unique names, and a
transaction takes at most `MAX_DESC + 2` steps of the model (log 1). -/
def Obligations.TransactionIsBounded : Prop :=
  ∀ (c : Params) (m : Memory) (f : FrameIn), loadCheck c m = none →
    stepsOf m f ≤ c.maxDesc + 2 ∧
    ∀ mt id descr props, decodeFrame c m f = some (.decoded mt id descr props) →
      ∃ e, catRead m id = some e ∧ e.descr = descr ∧ props.length ≤ e.n.toNat ∧ e.n.toNat ≤ c.maxDesc ∧
        (namesOf props).Nodup

/-! ## Values -/

/-- R180: every converter's value lies in its tag's range. -/
def Obligations.ConvertersStayInRange : Prop :=
  ∀ (c : Params) (p : Bits16) (i : Instr), (instrValue c p i).inRange = true

/-- R180, R181: the tag and the data bits of every value, and that they carry every value in range exactly; the three fields
of a port slot at their places. -/
def Obligations.PortCarriesValue : Prop :=
  (∀ b : Bool, (Value.bool b).vtag = 0#3 ∧ (Value.bool b).vdata.toNat = if b then 1 else 0) ∧
  (∀ z : Int, (Value.int z).inRange = true → (Value.int z).vtag = 1#3 ∧ (Value.int z).vdata.toInt = z) ∧
  (∀ c : Int, (Value.fix2 c).inRange = true → (Value.fix2 c).vtag = 2#3 ∧ (Value.fix2 c).vdata.toInt = c) ∧
  (∀ (d : BitVec 3) (h : BitVec 5) (mi : Bits8), (Value.daytime d h mi).vtag = 3#3 ∧
    (Value.daytime d h mi).vdata = 0#1 ++ d ++ h ++ mi) ∧
  (∀ mo d : Bits8, (Value.date mo d).vtag = 4#3 ∧ (Value.date mo d).vdata = 0#1 ++ mo ++ d) ∧
  (∀ s : Service, (Value.service s).vtag = 5#3) ∧
  ([Service.none, .typeA, .typeB, .typeC, .unknown].map fun s => (Value.service s).vdata.toNat) = [0, 1, 2, 3, 4] ∧
  (∀ p : Property, p.bits.extractLsb' 20 10 = p.name ∧ p.bits.extractLsb' 17 3 = p.value.vtag ∧
    p.bits.extractLsb' 0 17 = p.value.vdata) ∧
  ∀ v : Value, v.inRange = true → valueOfBits v.vtag v.vdata = some v

/-- R181: the fields of the result port and when they are defined: `STATUS`; `MT` and `ID` of the frame unless it is
malformed; `DESCR_IDX` of the entry only where decoded; `PCOUNT` counts the properties, one slot each, in order, and is 0
unless decoded. -/
def Obligations.PortCountsProperties : Prop :=
  ∀ (c : Params) (m : Memory) (f : FrameIn) (r : Result), loadCheck c m = none → decodeFrame c m f = some r →
    (portOf r).status = r.status ∧
    (f = .invalid → (portOf r).mt = none ∧ (portOf r).ident = none ∧ (portOf r).descrIdx = none) ∧
    (∀ w, f = .valid w → (portOf r).mt = some (w.extractLsb' 28 3) ∧ (portOf r).ident = some (w.extractLsb' 16 8) ∧
      (portOf r).descrIdx = (catRead m (w.extractLsb' 16 8)).map EntryRec.descr) ∧
    ((portOf r).descrIdx.isSome = true ↔ (portOf r).status = 0#2) ∧
    ((portOf r).mt.isSome = true ↔ (portOf r).status ≠ 2#2) ∧
    (portOf r).pcount.toNat = (portOf r).prop.length ∧
    (∀ mt id descr props, r = .decoded mt id descr props → (portOf r).prop = props.map Property.bits) ∧
    ((portOf r).status ≠ 0#2 → (portOf r).pcount = 0)

/-- R23, R205: `STATUS` is MALFORMED exactly for an invalid frame, UNKNOWN_ID exactly for a valid frame of an absent
identifier, and 3 never. -/
def Obligations.StatusOfOutcome : Prop :=
  ∀ (c : Params) (m : Memory) (f : FrameIn) (r : Result), decodeFrame c m f = some r →
    (r.status = 2#2 ↔ f = .invalid) ∧
    (r.status = 1#2 ↔ ∃ w, f = .valid w ∧ catRead m (frameId w) = none) ∧
    r.status ≠ 3#2 ∧ r.errMalformed = (r.status == 2#2) ∧ r.idKnown = (r.status == 0#2)

/-- R147, Range: with the sign bit set the exact value lies in -128..-1/256 under TWOS_COMPLEMENT, and in
-(127 + 255/256)..0 under INVERT_HB_PLUS_FRACTION. -/
def Obligations.NegativeFixedPointRange : Prop :=
  ∀ v : Bits16, v.getLsbD 15 = true →
    (-128 ≤ f88Exact .twosComplement v ∧ f88Exact .twosComplement v ≤ -1 / 256) ∧
    (-(127 + 255 / 256) ≤ f88Exact .invertHbPlusFraction v ∧ f88Exact .invertHbPlusFraction v ≤ 0)

/-- R148, corner cases: the two tie modes differ exactly on negative values whose low byte is 0x20, 0x60, 0xA0 or 0xE0. -/
def Obligations.TieModesDifferOnNegativeTies : Prop :=
  ∀ (mode : F88NegMode) (v : Bits16),
    convF88 mode .halfAwayFromZero v ≠ convF88 mode .halfTowardPosInf v ↔
      (v.getLsbD 15 = true ∧ (lowByte v = 0x20#8 ∨ lowByte v = 0x60#8 ∨ lowByte v = 0xA0#8 ∨ lowByte v = 0xE0#8))

/-! ## Rendering -/

/-- R183, with the tables of R184, R185 and R186 written out: the rendered values. For `month >= 13` the name is the free
value of the draw (I5; log 11), whatever that is; that the real number of a FIX2 is an exact rational is the model's
choice of form (D33; log 18). -/
def Obligations.RenderedValues : Prop :=
  ∀ draw : Nat,
    (∀ b, renderValue draw (.bool b) = .boolean b) ∧
    (∀ z, renderValue draw (.int z) = .integer z) ∧
    (∀ c : Int, renderValue draw (.fix2 c) = .real ((c : Rat) / 100)) ∧
    (∀ (d : BitVec 3) h m, renderValue draw (.daytime d h m) =
      .string (["unknown", "monday", "tuesday", "wednesday", "thursday", "friday", "saturday", "sunday"].getD d.toNat "" ++
        ", " ++ Nat.repr h.toNat ++ ":" ++ Nat.repr m.toNat)) ∧
    (∀ mo d : Bits8, 13 ≤ mo.toNat → renderValue draw (.date mo d) =
      .string (Config.unspecifiedMonthName draw mo ++ ", " ++ Nat.repr d.toNat)) ∧
    (∀ mo d : Bits8, mo.toNat < 13 → renderValue draw (.date mo d) =
      .string (["unknown", "january", "february", "march", "april", "may", "june", "july", "august", "september",
        "october", "november", "december"].getD mo.toNat "" ++ ", " ++ Nat.repr d.toNat)) ∧
    renderValue draw (.service .none) = .string "None" ∧
    renderValue draw (.service .typeA) = .string "Type A" ∧
    renderValue draw (.service .typeB) = .string "Type B" ∧
    renderValue draw (.service .typeC) = .string "Type C" ∧
    renderValue draw (.service .unknown) = .string "Unknown"

/-- R182, R110, R116, with the table of R95 written out: what the host sees of each outcome. The model's choices in it: the
error tag has no other form than its constructor (log 18); the j-th property takes draw `draw + j` (logs 11, 12); there is
one pair for each `NAME` index, also where two indices hold one string (log 25). -/
def Obligations.RenderedResults : Prop :=
  ∀ (m : Memory) (draw : Nat),
    renderResult m draw .malformed = .errorTag ∧
    ∀ (mt : MT3) (messageType : String),
      ["Read-Data", "Write-Data", "Invalid-Data", "Reserved", "Read-Ack", "Write-Ack", "Data-Invalid",
        "Unknown-DataId"][mt.toNat]? = some messageType →
      (∀ id, renderResult m draw (.unknownId mt id) = .object messageType id.toNat "Unknown" []) ∧
      ∀ id descr props, ∃ ps, renderResult m draw (.decoded mt id descr props) =
          .object messageType id.toNat (m.descrAt descr) ps ∧
        ps.map Prod.fst = props.map (fun p => m.nameAt p.name) ∧
        ∀ j p, props[j]? = some p → (ps[j]?).map Prod.snd = some (renderValue (draw + j) p.value)

/-! ## The whole machine -/

/-- The invariant of the machine: every step keeps it. -/
def Obligations.StepKeepsInv : Prop :=
  ∀ s s' : State, Inv s → step s = .next s' → Inv s'

/-- Every host action keeps the invariant. -/
def Obligations.HostActionsKeepInv : Prop :=
  ∀ (s : State) (a : HostAction), Inv s → a.legal = true → Inv (a.apply s)

/-- R155, R200: a block in operation never stops: every step has a next state. -/
def Obligations.OperationNeverStops : Prop :=
  ∀ s : State, Inv s → s.boot = .inOperation → ∃ s', step s = .next s'

/-- R114, R118, R180: in every state that steps and host actions reach, the output register holds a result with unique names,
at most `MAX_DESC` properties and every value in range, of an identifier the catalog holds. -/
def Obligations.ReachableOutputsAreSound : Prop :=
  ∀ (s : State) (mt : MT3) (id : DataId) (descr : BitVec 10) (props : List Property), Reachable s →
    s.output = some (.decoded mt id descr props) →
    (namesOf props).Nodup ∧ props.length ≤ s.params.maxDesc ∧ (∀ p ∈ props, p.value.inRange = true) ∧
      ∃ e, catRead s.rom id = some e ∧ e.descr = descr

/-- R2, R115: the steps of a transaction give DECODE's result, and change nothing but the port and the output register. The
steps are the model's (log 1). -/
def Obligations.TransactionRefinesDecode : Prop :=
  ∀ (s : State) (f : FrameIn) (rest : List FrameIn), Inv s → s.ready → s.port = f :: rest →
    ∃ r, decodeFrame s.params s.rom f = some r ∧
      runSteps (stepsOf s.rom f) s = .next { s with port := rest, output := some r }

/-- R27, R48, R201, R207: in a stream every frame gives the result it would get alone, whatever came before it. The waiting list
of the port is the model's (log 9). -/
def Obligations.StreamResultsAreIndependent : Prop :=
  ∀ (s : State) (fs : List FrameIn) (f : FrameIn) (rest : List FrameIn), Inv s → s.ready →
    s.port = fs ++ f :: rest →
    ∃ r, decodeFrame s.params s.rom f = some r ∧
      runSteps (stepsOfStream s.rom (fs ++ [f])) s = .next { s with port := rest, output := some r }

/-- R119: a block with an admitted catalog gives each of the source's test frames the pinned property, and the host reads
the value the source writes. `admitted` is the model's form of K1-K5 (log 26). -/
def Obligations.AdmittedCatalogsGiveSourceFrames : Prop :=
  ∀ (s : State) (pin : Pin) (rest : List FrameIn), Inv s → s.ready → admitted s.params s.rom = true → pin ∈ pins →
    s.port = .valid pin.frame :: rest →
    ∃ s' messageType descr ps, runSteps (stepsOf s.rom (.valid pin.frame)) s = .next s' ∧
      (readOutput s').1 = some (.object messageType (frameId pin.frame).toNat descr ps) ∧
      (pin.name, pin.rendered) ∈ ps

/-- R119, from the descriptors alone: where the pinned descriptor is the only one of its entry that applies to the source's
frame under its name, the block computes the value the source writes and the host reads it, under every setting of the
parameters. Nothing of the value is assumed. -/
def Obligations.SourceDescriptorsGiveSourceValues : Prop :=
  ∀ (s : State) (pin : Pin) (rest : List FrameIn), Inv s → s.ready → pin ∈ pins → pinSole s.rom pin = true →
    s.port = .valid pin.frame :: rest →
    ∃ s' messageType descr ps, runSteps (stepsOf s.rom (.valid pin.frame)) s = .next s' ∧
      (readOutput s').1 = some (.object messageType (frameId pin.frame).toNat descr ps) ∧
      ∀ shown, (pin.name, shown) ∈ ps ↔ shown = pin.rendered

/-- R114, R118, R180, R181: in every state of the invariant a DECODED result in the output register has unique names, at most
`MAX_DESC` properties and every value in range, and is of an identifier the catalog holds, with its entry's description. -/
def Obligations.ShownResultsAreSound : Prop :=
  ∀ (s : State) (mt : MT3) (id : DataId) (descr : BitVec 10) (props : List Property), Inv s →
    s.output = some (.decoded mt id descr props) →
    (namesOf props).Nodup ∧ props.length ≤ s.params.maxDesc ∧ (∀ p ∈ props, p.value.inRange = true) ∧
      ∃ e, catRead s.rom id = some e ∧ e.descr = descr
end

