-- ==== Sys2Proof/Laws/Props.lean ====
section
/-! SUPPORT. Property insertion (41_catalog_lookup.md R114) and the fold of the descriptor loop. -/

namespace Sys2Proof.Machine

@[simp] theorem namesOf_nil : namesOf [] = [] := rfl
@[simp] theorem namesOf_cons (p : Property) (l : List Property) : namesOf (p :: l) = p.name :: namesOf l := rfl

@[simp] theorem valueOf_nil (n : NameIdx) : valueOf [] n = none := rfl

theorem valueOf_cons (p : Property) (l : List Property) (n : NameIdx) :
    valueOf (p :: l) n = if p.name = n then some p.value else valueOf l n := by
  by_cases h : p.name = n <;> simp [valueOf, h]

/-- The names after an insertion: unchanged where the name is there, else the name at the end. -/
theorem namesOf_insertProp (n : NameIdx) (v : Value) (l : List Property) :
    namesOf (insertProp n v l) = if n ∈ namesOf l then namesOf l else namesOf l ++ [n] := by
  induction l with
  | nil => rfl
  | cons p rest ih =>
    rw [insertProp]
    by_cases h : p.name = n
    · simp [h]
    · rw [if_neg h, namesOf_cons, ih]
      have h' : n ≠ p.name := Ne.symm h
      by_cases hm : n ∈ namesOf rest <;> simp [hm, h']

/-- The inserted name has the inserted value. -/
theorem valueOf_insertProp_same (n : NameIdx) (v : Value) (l : List Property) : valueOf (insertProp n v l) n = some v := by
  induction l with
  | nil => simp [insertProp, valueOf_cons]
  | cons p rest ih =>
    rw [insertProp]
    by_cases h : p.name = n
    · rw [if_pos h, valueOf_cons, if_pos rfl]
    · rw [if_neg h, valueOf_cons, if_neg h, ih]

/-- Every other name keeps its value. -/
theorem valueOf_insertProp_other {n n' : NameIdx} (v : Value) (l : List Property) (h : n' ≠ n) :
    valueOf (insertProp n v l) n' = valueOf l n' := by
  induction l with
  | nil => simp [insertProp, valueOf_cons, Ne.symm h]
  | cons p rest ih =>
    rw [insertProp]
    by_cases hp : p.name = n
    · rw [if_pos hp, valueOf_cons, valueOf_cons, if_neg (Ne.symm h), if_neg (by rw [hp]; exact Ne.symm h)]
    · rw [if_neg hp, valueOf_cons, valueOf_cons, ih]

theorem length_insertProp (n : NameIdx) (v : Value) (l : List Property) :
    (insertProp n v l).length ≤ l.length + 1 := by
  have h := congrArg List.length (namesOf_insertProp n v l)
  have hl : ∀ q : List Property, (namesOf q).length = q.length := fun q => List.length_map _
  rw [hl] at h
  split at h
  · rw [hl] at h; omega
  · rw [List.length_append, hl] at h; simp at h; omega

/-- Unique names stay unique. -/
theorem nodup_insertProp {n : NameIdx} {v : Value} {l : List Property} (h : (namesOf l).Nodup) :
    (namesOf (insertProp n v l)).Nodup := by
  rw [namesOf_insertProp]
  split
  · exact h
  · rename_i hm
    refine List.nodup_append.mpr ⟨h, by simp, ?_⟩
    intro a ha b hb hab
    rw [List.mem_singleton.mp hb] at hab
    exact hm (hab ▸ ha)

/-- A property after an insertion is the inserted one or was there. -/
theorem mem_insertProp {n : NameIdx} {v : Value} {l : List Property} {p : Property} (h : p ∈ insertProp n v l) :
    p = ⟨n, v⟩ ∨ p ∈ l := by
  induction l with
  | nil => exact .inl (by simpa [insertProp] using h)
  | cons q rest ih =>
    rw [insertProp] at h
    split at h
    · rcases List.mem_cons.mp h with h | h
      · exact .inl h
      · exact .inr (List.mem_cons_of_mem _ h)
    · rcases List.mem_cons.mp h with h | h
      · exact .inr (h ▸ List.mem_cons_self)
      · exact (ih h).imp_right (List.mem_cons_of_mem _)

variable (c : Params) (mt : MT3) (p : Bits16)

@[simp] theorem assemble_nil (props : List Property) : assemble c mt p [] props = props := rfl

theorem assemble_cons (i : Instr) (is : List Instr) (props : List Property) :
    assemble c mt p (i :: is) props = assemble c mt p is (assembleOne c mt p props i) := rfl

theorem assemble_append (is js : List Instr) (props : List Property) :
    assemble c mt p (is ++ js) props = assemble c mt p js (assemble c mt p is props) := by
  simp [assemble, List.foldl_append]

/-- One more descriptor. -/
theorem assemble_take_succ {is : List Instr} {k : Nat} {i : Instr} (h : is[k]? = some i) :
    assemble c mt p (is.take (k + 1)) [] = assembleOne c mt p (assemble c mt p (is.take k) []) i := by
  rw [List.take_add_one, h, assemble_append]; rfl

theorem nodup_assemble (is : List Instr) : ∀ props : List Property, (namesOf props).Nodup →
    (namesOf (assemble c mt p is props)).Nodup := by
  induction is with
  | nil => exact fun _ h => h
  | cons i is ih =>
    intro props h
    rw [assemble_cons]
    apply ih
    unfold assembleOne
    split
    · exact nodup_insertProp h
    · exact h

theorem length_assemble (is : List Instr) : ∀ props : List Property,
    (assemble c mt p is props).length ≤ props.length + is.length := by
  induction is with
  | nil => intro props; simp
  | cons i is ih =>
    intro props
    rw [assemble_cons]
    refine (ih _).trans ?_
    have : (assembleOne c mt p props i).length ≤ props.length + 1 := by
      unfold assembleOne
      split
      · exact length_insertProp _ _ _
      · omega
    simp only [List.length_cons]
    omega

/-- Every property of a result is the conversion of one of the descriptors. -/
theorem mem_assemble (is : List Instr) : ∀ (props : List Property) (q : Property), q ∈ assemble c mt p is props →
    q ∈ props ∨ ∃ i ∈ is, q = ⟨i.name, instrValue c p i⟩ := by
  induction is with
  | nil => exact fun _ _ h => .inl h
  | cons i is ih =>
    intro props q h
    rw [assemble_cons] at h
    rcases ih _ q h with h | ⟨j, hj, he⟩
    · unfold assembleOne at h
      split at h
      · rcases mem_insertProp h with h | h
        · exact .inr ⟨i, List.mem_cons_self, h⟩
        · exact .inl h
      · exact .inl h
    · exact .inr ⟨j, List.mem_cons_of_mem _ hj, he⟩

end Sys2Proof.Machine
end

