-- ==== Sys2Proof/Laws/Exec.lean ====
section
/-! SUPPORT. Everything the visit of a descriptor can do, said once. -/

namespace Sys2Proof.Machine

/-- `V` of a visit: the payload narrowed by the instruction's selector (R75, R130). -/
def instrNarrow (p : Bits16) (i : Instr) : Narrowed := narrow p i.toDesc.sel

/-- The transaction after the visit of a descriptor. -/
def visitInstr (c : Params) (i : Instr) (t : Txn) : Txn :=
  if applies i.filter t.mt then t.deliver i.name (instrNarrow t.payload i) (instrValue c t.payload i) else t.skip

/-- Every meaning is the visit of its descriptor. -/
theorem exec_eq_visit (i : Instr) (s : State) : exec i s = withTxn s (visitInstr s.params i) := by
  cases i <;> rfl

/-- In a transaction, every instruction answers a next state. -/
theorem exec_of_txn (i : Instr) {s : State} {t : Txn} (h : s.txn = some t) :
    exec i s = .next { s with txn := some (visitInstr s.params i t) } := by
  rw [exec_eq_visit, withTxn, h]

/-- If an instruction answers a next state, a transaction was in progress and only it changed. -/
theorem exec_next {i : Instr} {s s' : State} (h : exec i s = .next s') :
    ∃ t, s.txn = some t ∧ s' = { s with txn := some (visitInstr s.params i t) } := by
  rw [exec_eq_visit, withTxn] at h
  split at h
  · cases h
  · rename_i t ht
    cases h
    exact ⟨t, ht, rfl⟩

variable (c : Params) (i : Instr) (t : Txn)

@[simp] theorem visitInstr_frame : (visitInstr c i t).frame = t.frame := by unfold visitInstr; split <;> rfl
@[simp] theorem visitInstr_entry : (visitInstr c i t).entry = t.entry := by unfold visitInstr; split <;> rfl
@[simp] theorem visitInstr_k : (visitInstr c i t).k = t.k + 1 := by unfold visitInstr; split <;> rfl
@[simp] theorem visitInstr_mt : (visitInstr c i t).mt = t.mt := by unfold Txn.mt; rw [visitInstr_frame]
@[simp] theorem visitInstr_ident : (visitInstr c i t).ident = t.ident := by unfold Txn.ident; rw [visitInstr_frame]
@[simp] theorem visitInstr_payload : (visitInstr c i t).payload = t.payload := by
  unfold Txn.payload; rw [visitInstr_frame]

/-- `PROPS` after a visit is one iteration of DECODE's loop. -/
theorem visitInstr_props : (visitInstr c i t).props = assembleOne c t.mt t.payload t.props i := by
  unfold visitInstr assembleOne; split <;> rfl

end Sys2Proof.Machine
end

