-- ==== Sys2Proof/Laws/Fields.lean ====
section
/-! SUPPORT. The fields of a packed descriptor word (30_encoding.md R65), and what the decoder says of a word. -/

namespace Sys2Proof
variable (k : BitVec 4) (s : BitVec 2) (b : BitVec 3) (v : BitVec 1) (m r0 : BitVec 3) (n : NameIdx) (r1 : BitVec 6)

theorem add_mul_div_of_lt {a b m : Nat} (h : a < m) : (a + m * b) / m = b := by
  rw [Nat.add_mul_div_left _ _ (by omega), Nat.div_eq_of_lt h, Nat.zero_add]

theorem add_mul_mod_of_lt {a b m : Nat} (h : a < m) : (a + m * b) % m = a := by
  rw [Nat.add_mul_mod_self_left, Nat.mod_eq_of_lt h]

/-- The word as a number, its fields nested from the least significant. -/
theorem packDesc_toNat : (packDesc k s b v m r0 n r1).toNat =
    k.toNat + 16 * (s.toNat + 4 * (b.toNat + 8 * (v.toNat + 2 * (m.toNat + 8 * (r0.toNat + 8 *
      (n.toNat + 1024 * r1.toNat)))))) := by
  have := k.isLt; have := s.isLt; have := b.isLt; have := v.isLt; have := m.isLt; have := r0.isLt; have := n.isLt
  have := r1.isLt
  simp only [packDesc, BitVec.toNat_ofNat]
  rw [Nat.mod_eq_of_lt (by omega)]; omega

theorem pack_div4 : (packDesc k s b v m r0 n r1).toNat / 2 ^ 4 = (s.toNat + 4 * (b.toNat + 8 * (v.toNat + 2 * (m.toNat + 8 * (r0.toNat + 8 *
      (n.toNat + 1024 * r1.toNat)))))) := by
  rw [packDesc_toNat]; exact add_mul_div_of_lt (show k.toNat < 16 from k.isLt)
theorem pack_div6 : (packDesc k s b v m r0 n r1).toNat / 2 ^ 6 = (b.toNat + 8 * (v.toNat + 2 * (m.toNat + 8 * (r0.toNat + 8 *
      (n.toNat + 1024 * r1.toNat))))) := by
  rw [show 2 ^ 6 = 2 ^ 4 * 4 from rfl, ← Nat.div_div_eq_div_mul, pack_div4]; exact add_mul_div_of_lt (show s.toNat < 4 from s.isLt)
theorem pack_div9 : (packDesc k s b v m r0 n r1).toNat / 2 ^ 9 = (v.toNat + 2 * (m.toNat + 8 * (r0.toNat + 8 *
      (n.toNat + 1024 * r1.toNat)))) := by
  rw [show 2 ^ 9 = 2 ^ 6 * 8 from rfl, ← Nat.div_div_eq_div_mul, pack_div6]; exact add_mul_div_of_lt (show b.toNat < 8 from b.isLt)
theorem pack_div10 : (packDesc k s b v m r0 n r1).toNat / 2 ^ 10 = (m.toNat + 8 * (r0.toNat + 8 *
      (n.toNat + 1024 * r1.toNat))) := by
  rw [show 2 ^ 10 = 2 ^ 9 * 2 from rfl, ← Nat.div_div_eq_div_mul, pack_div9]; exact add_mul_div_of_lt (show v.toNat < 2 from v.isLt)
theorem pack_div13 : (packDesc k s b v m r0 n r1).toNat / 2 ^ 13 = (r0.toNat + 8 * (n.toNat + 1024 * r1.toNat)) := by
  rw [show 2 ^ 13 = 2 ^ 10 * 8 from rfl, ← Nat.div_div_eq_div_mul, pack_div10]; exact add_mul_div_of_lt (show m.toNat < 8 from m.isLt)
theorem pack_div16 : (packDesc k s b v m r0 n r1).toNat / 2 ^ 16 = (n.toNat + 1024 * r1.toNat) := by
  rw [show 2 ^ 16 = 2 ^ 13 * 8 from rfl, ← Nat.div_div_eq_div_mul, pack_div13]; exact add_mul_div_of_lt (show r0.toNat < 8 from r0.isLt)
theorem pack_div26 : (packDesc k s b v m r0 n r1).toNat / 2 ^ 26 = r1.toNat := by
  rw [show 2 ^ 26 = 2 ^ 16 * 1024 from rfl, ← Nat.div_div_eq_div_mul, pack_div16]; exact add_mul_div_of_lt (show n.toNat < 1024 from n.isLt)

@[simp] theorem kindField_packDesc : kindField (packDesc k s b v m r0 n r1) = k := by
  apply BitVec.eq_of_toNat_eq
  rw [kindField, BitVec.extractLsb'_toNat, Nat.shiftRight_zero, packDesc_toNat]
  exact add_mul_mod_of_lt (show k.toNat < 16 from k.isLt)
@[simp] theorem selField_packDesc : selField (packDesc k s b v m r0 n r1) = s := by
  apply BitVec.eq_of_toNat_eq
  rw [selField, BitVec.extractLsb'_toNat, Nat.shiftRight_eq_div_pow, pack_div4]
  exact add_mul_mod_of_lt (show s.toNat < 4 from s.isLt)
@[simp] theorem bitField_packDesc : bitField (packDesc k s b v m r0 n r1) = b := by
  apply BitVec.eq_of_toNat_eq
  rw [bitField, BitVec.extractLsb'_toNat, Nat.shiftRight_eq_div_pow, pack_div6]
  exact add_mul_mod_of_lt (show b.toNat < 8 from b.isLt)
@[simp] theorem fvField_packDesc : fvField (packDesc k s b v m r0 n r1) = v := by
  apply BitVec.eq_of_toNat_eq
  rw [fvField, BitVec.extractLsb'_toNat, Nat.shiftRight_eq_div_pow, pack_div9]
  exact add_mul_mod_of_lt (show v.toNat < 2 from v.isLt)
@[simp] theorem fmtField_packDesc : fmtField (packDesc k s b v m r0 n r1) = m := by
  apply BitVec.eq_of_toNat_eq
  rw [fmtField, BitVec.extractLsb'_toNat, Nat.shiftRight_eq_div_pow, pack_div10]
  exact add_mul_mod_of_lt (show m.toNat < 8 from m.isLt)
@[simp] theorem rsv0Field_packDesc : rsv0Field (packDesc k s b v m r0 n r1) = r0 := by
  apply BitVec.eq_of_toNat_eq
  rw [rsv0Field, BitVec.extractLsb'_toNat, Nat.shiftRight_eq_div_pow, pack_div13]
  exact add_mul_mod_of_lt (show r0.toNat < 8 from r0.isLt)
@[simp] theorem nameField_packDesc : nameField (packDesc k s b v m r0 n r1) = n := by
  apply BitVec.eq_of_toNat_eq
  rw [nameField, BitVec.extractLsb'_toNat, Nat.shiftRight_eq_div_pow, pack_div16]
  exact add_mul_mod_of_lt (show n.toNat < 1024 from n.isLt)
@[simp] theorem rsv1Field_packDesc : rsv1Field (packDesc k s b v m r0 n r1) = r1 := by
  apply BitVec.eq_of_toNat_eq
  rw [rsv1Field, BitVec.extractLsb'_toNat, Nat.shiftRight_eq_div_pow, pack_div26]
  exact Nat.mod_eq_of_lt r1.isLt

theorem mod_add_mul_div (x m : Nat) : x % m + m * (x / m) = x := Nat.mod_add_div x m

/-- Every word is the packing of its eight fields: no bit is in none. -/
theorem packDesc_fields (w : Word32) : packDesc (kindField w) (selField w) (bitField w) (fvField w) (fmtField w)
    (rsv0Field w) (nameField w) (rsv1Field w) = w := by
  apply BitVec.eq_of_toNat_eq
  rw [packDesc_toNat]
  simp only [kindField, selField, bitField, fvField, fmtField, rsv0Field, nameField, rsv1Field, BitVec.extractLsb'_toNat,
    Nat.shiftRight_eq_div_pow]
  have hl : w.toNat / 2 ^ 26 < 2 ^ 6 := Nat.div_lt_of_lt_mul w.isLt
  rw [Nat.mod_eq_of_lt hl]
  norm_num only
  omega
@[simp] theorem kindOfCode_code (k : Kind) : kindOfCode k.code = some k := by cases k <;> rfl
@[simp] theorem selOfCode_code (s : Sel) : selOfCode s.code = some s := by cases s <;> rfl
theorem code_of_kindOfCode {c : BitVec 4} {k : Kind} (h : kindOfCode c = some k) : k.code = c := by
  revert h; revert c; cases k <;> decide
theorem code_of_selOfCode {c : BitVec 2} {k : Sel} (h : selOfCode c = some k) : k.code = c := by
  revert h; revert c; cases k <;> decide


theorem toInstr_toDesc (i : Instr) : i.toDesc.toInstr = some i := by
  rcases i with ⟨f, h, b, n⟩ | ⟨f, h, n⟩ | ⟨f, h, n⟩ | ⟨f, n⟩ | ⟨f, n⟩ | ⟨f, n⟩ | ⟨f, n⟩ | ⟨f, n⟩ | ⟨f, n⟩ | ⟨f, n⟩ <;>
    first | rfl | (cases h <;> rfl)

theorem toDesc_bitPaired (i : Instr) : i.toDesc.bitPaired = true := by cases i <;> rfl

/-- The word of a descriptor that satisfies W4 gives the descriptor back. -/
theorem wordDesc_word (d : Desc) (h : d.bitPaired = true) : wordDesc d.kind d.sel d.word = d := by
  obtain ⟨f, s, k, b, n⟩ := d
  simp only [wordDesc, Desc.word, filterOf, bitOf, fvField_packDesc, fmtField_packDesc, bitField_packDesc,
    nameField_packDesc, Desc.mk.injEq, true_and, and_true]
  constructor
  · cases f <;> rfl
  · cases b <;> cases k <;> first | rfl | cases h

/-- What a decoded word says: its kind and selector are legal, its fields denote the instruction, W4-W6 hold. -/
theorem decode_ok {w : Word32} {i : Instr} (h : decode w = .ok i) :
    ∃ k s, k.code = kindField w ∧ s.code = selField w ∧ (wordDesc k s w).toInstr = some i ∧
      (k ≠ .flag → bitField w = 0#3) ∧ (fvField w = 0#1 → fmtField w = 0#3) ∧ rsv0Field w = 0#3 ∧ rsv1Field w = 0#6 := by
  unfold decode at h
  split at h
  · cases h
  · cases h
  · rename_i k s hk hs
    refine ⟨k, s, code_of_kindOfCode hk, code_of_selOfCode hs, ?_⟩
    unfold checkFields at h
    split at h
    · cases h
    · rename_i o j hj
      split_ifs at h with h4 h5 h6
      cases h
      refine ⟨hj, ?_, ?_, ?_, ?_⟩
      · intro hk; by_contra hb; exact h4 ⟨hk, hb⟩
      · intro hk; by_contra hb; exact h5 ⟨hk, hb⟩
      · by_contra hb; exact h6 (.inl hb)
      · by_contra hb; exact h6 (.inr hb)

theorem toDesc_of_toInstr {d : Desc} {i : Instr} (h : d.toInstr = some i) : i.toDesc = d := by
  obtain ⟨f, s, k, b, n⟩ := d
  cases k <;> cases s <;> cases b <;> simp only [Desc.toInstr, Option.some.injEq, reduceCtorEq] at h <;> subst h <;> rfl

end Sys2Proof
end

