-- ==== Sys2Proof/Laws/Memory.lean ====
section
/-! SUPPORT. The catalog ROM: reads after writes, and the canonical form every memory operation keeps. -/

namespace Sys2Proof.Machine

theorem entriesFrom_mono {lo lo' : Nat} {l : List (Nat × Word32)} (h : lo' ≤ lo) (hl : entriesFrom lo l = true) :
    entriesFrom lo' l = true := by
  cases l with
  | nil => rfl
  | cons p rest =>
    obtain ⟨a, w⟩ := p
    simp only [entriesFrom, Bool.and_eq_true, decide_eq_true_eq] at hl ⊢
    exact ⟨⟨⟨by omega, hl.1.1.2⟩, hl.1.2⟩, hl.2⟩

/-- A slot below every listed one reads as unlisted. -/
theorem readSlot_of_lt {lo id : Nat} {l : List (Nat × Word32)} (hl : entriesFrom lo l = true) (h : id < lo) :
    readSlot id l = unlistedEntry := by
  induction l generalizing lo with
  | nil => rfl
  | cons p rest ih =>
    obtain ⟨a, w⟩ := p
    simp only [entriesFrom, Bool.and_eq_true, decide_eq_true_eq] at hl
    rw [readSlot, if_neg (by omega)]
    exact ih hl.2 (by omega)

/-- Writing a slot keeps the canonical form. -/
theorem entriesFrom_writeSlot {lo id : Nat} {w : Word32} {l : List (Nat × Word32)} (hl : entriesFrom lo l = true)
    (h : lo ≤ id) (hid : id < 256) : entriesFrom lo (writeSlot id w l) = true := by
  induction l generalizing lo with
  | nil =>
    unfold writeSlot
    split
    · rfl
    · rename_i hw
      simp [entriesFrom, h, hid, hw]
  | cons p rest ih =>
    obtain ⟨a, x⟩ := p
    have hl' := hl
    simp only [entriesFrom, Bool.and_eq_true, decide_eq_true_eq] at hl'
    obtain ⟨⟨⟨h1, h2⟩, h3⟩, h4⟩ := hl'
    unfold writeSlot
    split
    · rename_i hlt
      simp only [entriesFrom, Bool.and_eq_true, decide_eq_true_eq]
      exact ⟨⟨⟨h1, h2⟩, h3⟩, ih h4 (by omega)⟩
    · rename_i hge
      have htail : entriesFrom (id + 1) (if a = id then rest else (a, x) :: rest) = true := by
        split
        · rename_i he; subst he; exact h4
        · simp only [entriesFrom, Bool.and_eq_true, decide_eq_true_eq]
          exact ⟨⟨⟨by omega, h2⟩, h3⟩, h4⟩
      dsimp only
      split
      · exact entriesFrom_mono (by omega) htail
      · rename_i hw
        simp only [entriesFrom, Bool.and_eq_true, decide_eq_true_eq]
        exact ⟨⟨⟨h, hid⟩, by simpa using hw⟩, htail⟩

/-- A read of the slot written gives the value written. -/
theorem readSlot_writeSlot_same {lo id : Nat} {w : Word32} {l : List (Nat × Word32)} (hl : entriesFrom lo l = true) :
    readSlot id (writeSlot id w l) = w := by
  induction l generalizing lo with
  | nil =>
    unfold writeSlot
    split
    · rename_i h; rw [h]; rfl
    · simp [readSlot]
  | cons p rest ih =>
    obtain ⟨a, x⟩ := p
    simp only [entriesFrom, Bool.and_eq_true, decide_eq_true_eq] at hl
    unfold writeSlot
    split
    · rename_i hlt
      rw [readSlot, if_neg (by omega)]
      exact ih hl.2
    · rename_i hge
      dsimp only
      split
      · rename_i hw
        rw [hw]
        split
        · rename_i he; exact readSlot_of_lt hl.2 (by omega)
        · rw [readSlot, if_neg (by omega)]; exact readSlot_of_lt hl.2 (by omega)
      · rw [readSlot, if_pos rfl]

/-- Every other slot reads as before. -/
theorem readSlot_writeSlot_other {id id' : Nat} {w : Word32} {l : List (Nat × Word32)} (h : id' ≠ id) :
    readSlot id' (writeSlot id w l) = readSlot id' l := by
  induction l with
  | nil =>
    unfold writeSlot
    split
    · rfl
    · simp [readSlot, Ne.symm h]
  | cons p rest ih =>
    obtain ⟨a, x⟩ := p
    unfold writeSlot
    split
    · by_cases ha : a = id'
      · rw [readSlot, if_pos ha, readSlot, if_pos ha]
      · rw [readSlot, if_neg ha, readSlot, if_neg ha, ih]
    · have htail : readSlot id' (if a = id then rest else (a, x) :: rest) = readSlot id' ((a, x) :: rest) := by
        split
        · rename_i he; rw [readSlot, if_neg (by omega)]
        · rfl
      dsimp only
      split
      · exact htail
      · rw [readSlot, if_neg (Ne.symm h)]; exact htail

/-- Loading a slot keeps the canonical form of the ROM. -/
theorem writeEntry_wf {m : Memory} {id : DataId} {w : Word32} (h : m.wf = true) : (m.writeEntry id w).wf = true :=
  entriesFrom_writeSlot h (Nat.zero_le _) id.isLt

theorem entryAt_writeEntry_same {m : Memory} {id : DataId} {w : Word32} (h : m.wf = true) :
    (m.writeEntry id w).entryAt id = w := readSlot_writeSlot_same h

theorem entryAt_writeEntry_other {m : Memory} {id id' : DataId} {w : Word32} (h : id' ≠ id) :
    (m.writeEntry id w).entryAt id' = m.entryAt id' :=
  readSlot_writeSlot_other fun he => h (BitVec.eq_of_toNat_eq he)

@[simp] theorem writeEntry_desc (m : Memory) (id : DataId) (w : Word32) : (m.writeEntry id w).desc = m.desc := rfl
@[simp] theorem writeEntry_name (m : Memory) (id : DataId) (w : Word32) : (m.writeEntry id w).name = m.name := rfl
@[simp] theorem writeEntry_descr (m : Memory) (id : DataId) (w : Word32) : (m.writeEntry id w).descr = m.descr := rfl

/-- A slot listed in a canonical ROM is what its identifier reads. -/
theorem readSlot_of_mem {lo id : Nat} {w : Word32} {l : List (Nat × Word32)} (hl : entriesFrom lo l = true)
    (h : (id, w) ∈ l) : readSlot id l = w ∧ lo ≤ id ∧ id < 256 := by
  induction l generalizing lo with
  | nil => cases h
  | cons p rest ih =>
    obtain ⟨a, x⟩ := p
    simp only [entriesFrom, Bool.and_eq_true, decide_eq_true_eq] at hl
    rcases List.mem_cons.mp h with he | he
    · cases he
      exact ⟨by rw [readSlot, if_pos rfl], hl.1.1.1, hl.1.1.2⟩
    · obtain ⟨h1, h2, h3⟩ := ih hl.2 he
      exact ⟨by rw [readSlot, if_neg (by omega)]; exact h1, by omega, h3⟩

/-- An identifier that does not read as unlisted is listed. -/
theorem mem_of_readSlot {id : Nat} {l : List (Nat × Word32)} (h : readSlot id l ≠ unlistedEntry) :
    (id, readSlot id l) ∈ l := by
  induction l with
  | nil => exact absurd rfl h
  | cons p rest ih =>
    obtain ⟨a, x⟩ := p
    by_cases ha : a = id
    · subst ha; simp [readSlot]
    · rw [readSlot, if_neg ha] at h ⊢
      exact List.mem_cons_of_mem _ (ih h)

theorem entryWord_toNat (e : EntryRec) : (entryWord e).toNat =
    e.base.toNat + 65536 * (e.descr.toNat + 1024 * (e.n.toNat + 32 * 1)) := by
  have := e.base.isLt; have := e.descr.isLt; have := e.n.isLt
  simp only [entryWord, BitVec.toNat_ofNat]
  rw [Nat.mod_eq_of_lt (by omega)]; omega

theorem entryWord_div16 (e : EntryRec) : (entryWord e).toNat / 2 ^ 16 = e.descr.toNat + 1024 * (e.n.toNat + 32 * 1) := by
  rw [entryWord_toNat]; exact add_mul_div_of_lt (show e.base.toNat < 65536 from e.base.isLt)

theorem entryWord_div26 (e : EntryRec) : (entryWord e).toNat / 2 ^ 26 = e.n.toNat + 32 * 1 := by
  rw [show 2 ^ 26 = 2 ^ 16 * 1024 from rfl, ← Nat.div_div_eq_div_mul, entryWord_div16]
  exact add_mul_div_of_lt (show e.descr.toNat < 1024 from e.descr.isLt)

theorem entryWord_div31 (e : EntryRec) : (entryWord e).toNat / 2 ^ 31 = 1 := by
  rw [show 2 ^ 31 = 2 ^ 26 * 32 from rfl, ← Nat.div_div_eq_div_mul, entryWord_div26]
  exact add_mul_div_of_lt (show e.n.toNat < 32 from e.n.isLt)

/-- A packed entry word is present (R68). -/
@[simp] theorem entryPresent_entryWord (e : EntryRec) : entryPresent (entryWord e) = true := by
  have h : (entryWord e).extractLsb' 31 1 = 1#1 := by
    apply BitVec.eq_of_toNat_eq
    rw [BitVec.extractLsb'_toNat, Nat.shiftRight_eq_div_pow, entryWord_div31]; rfl
  rw [entryPresent, h]; rfl

/-- A packed entry word reads back as its record (R68). -/
@[simp] theorem entryRecord_entryWord (e : EntryRec) : entryRecord (entryWord e) = e := by
  have h1 : (entryWord e).extractLsb' 16 10 = e.descr := by
    apply BitVec.eq_of_toNat_eq
    rw [BitVec.extractLsb'_toNat, Nat.shiftRight_eq_div_pow, entryWord_div16]
    exact add_mul_mod_of_lt (show e.descr.toNat < 1024 from e.descr.isLt)
  have h2 : (entryWord e).extractLsb' 0 16 = e.base := by
    apply BitVec.eq_of_toNat_eq
    rw [BitVec.extractLsb'_toNat, Nat.shiftRight_zero, entryWord_toNat]
    exact add_mul_mod_of_lt (show e.base.toNat < 65536 from e.base.isLt)
  have h3 : (entryWord e).extractLsb' 26 5 = e.n := by
    apply BitVec.eq_of_toNat_eq
    rw [BitVec.extractLsb'_toNat, Nat.shiftRight_eq_div_pow, entryWord_div26]
    exact add_mul_mod_of_lt (show e.n.toNat < 32 from e.n.isLt)
  rw [entryRecord, h1, h2, h3]

/-- `PRESENT` is bit 31 of the word (R68). -/
theorem entryPresent_eq_bit (w : Word32) : entryPresent w = w.getLsbD 31 := by
  rw [entryPresent, Bool.eq_iff_iff, beq_iff_eq]
  constructor
  · intro h
    simpa using congrArg (fun x => BitVec.getLsbD x 0) h
  · intro h
    apply BitVec.eq_of_getLsbD_eq
    intro i hi
    obtain rfl : i = 0 := by omega
    simp [h]

/-- The empty ROM is canonical. -/
theorem empty_wf : Memory.empty.wf = true := rfl

/-- The ROM of `placeWord` is canonical. -/
theorem oneDescRom_wf (m : Memory) (id : DataId) (w : Word32) : (oneDescRom m id w).wf = true := by
  have h : entryWord ⟨0, 0, 1⟩ ≠ unlistedEntry := by decide
  simp only [Memory.wf, oneDescRom, entriesFrom, Bool.and_true, Bool.and_eq_true, decide_eq_true_eq, bne_iff_ne]
  exact ⟨⟨Nat.zero_le _, id.isLt⟩, h⟩

end Sys2Proof.Machine
end

