-- ==== Sys2Proof/Laws/LoadCheck.lean ====
section
/-! SUPPORT. What an accepted catalog gives: every entry decodes, whole and in bounds (30_encoding.md R69, R70). -/

namespace Sys2Proof.Machine

theorem checkDescWord_none {n : Nat} {w : Word32} (h : checkDescWord n w = none) :
    ∃ i, decode w = .ok i ∧ i.name.toNat < n := by
  unfold checkDescWord at h
  split at h
  · cases h
  · rename_i i hi
    split_ifs at h with hn
    exact ⟨i, hi, hn⟩

theorem firstBadWord_none {n : Nat} {l : List Word32} : ∀ {k : Nat},
    firstBadWord n k l = none ↔ ∀ w ∈ l, checkDescWord n w = none := by
  induction l with
  | nil => simp [firstBadWord]
  | cons w rest ih =>
    intro k
    unfold firstBadWord
    cases h : checkDescWord n w with
    | none => simp [h, ih]
    | some x => simp [h]

theorem decodeAll_isSome {n : Nat} {l : List Word32} (h : ∀ w ∈ l, checkDescWord n w = none) :
    ∃ is, decodeAll l = some is ∧ is.length = l.length := by
  induction l with
  | nil => exact ⟨[], rfl, rfl⟩
  | cons w rest ih =>
    obtain ⟨i, hi, _⟩ := checkDescWord_none (h w List.mem_cons_self)
    obtain ⟨is, his, hl⟩ := ih fun x hx => h x (List.mem_cons_of_mem _ hx)
    exact ⟨i :: is, by rw [decodeAll, hi, his], by simp [hl]⟩

/-- The k-th instruction of a decoded list is the decoding of the k-th word. -/
theorem decodeAll_get {l : List Word32} {is : List Instr} (h : decodeAll l = some is) :
    is.length = l.length ∧ ∀ (k : Nat) (w : Word32), l[k]? = some w → ∃ i, is[k]? = some i ∧ decode w = .ok i := by
  induction l generalizing is with
  | nil => simp only [decodeAll, Option.some.injEq] at h; subst h; simp
  | cons x rest ih =>
    unfold decodeAll at h
    split at h
    · rename_i i js hi hjs
      simp only [Option.some.injEq] at h
      subst h
      obtain ⟨hl, hg⟩ := ih hjs
      refine ⟨by simp [hl], ?_⟩
      intro k w hk
      cases k with
      | zero => simp only [List.getElem?_cons_zero, Option.some.injEq] at hk; subst hk; exact ⟨i, rfl, hi⟩
      | succ k => simpa using hg k w (by simpa using hk)
    · cases h

/-- What the check of one slot says of a present entry. -/
theorem checkSlot_none {c : Params} {m : Memory} {id : Nat} {w : Word32} (h : checkSlot c m (id, w) = none)
    (hp : entryPresent w = true) : entryInBounds c m (entryRecord w) = true ∧
      (∀ x ∈ entryWords m (entryRecord w), checkDescWord m.maxNames x = none) := by
  unfold checkSlot at h
  simp only [hp, Bool.not_true, Bool.false_eq_true, if_false] at h
  by_cases hb : entryInBounds c m (entryRecord w) = true
  · refine ⟨hb, ?_⟩
    simp only [hb, Bool.not_true, Bool.false_eq_true, if_false] at h
    split at h
    · cases h
    · rename_i hf
      exact firstBadWord_none.mp hf
  · simp [hb] at h

theorem loadCheck_slot {c : Params} {m : Memory} (h : loadCheck c m = none) {slot : Nat × Word32}
    (hs : slot ∈ m.entry) : checkSlot c m slot = none := by
  have := List.findSome?_eq_none_iff.mp h
  exact this slot hs

/-- A present identifier of an accepted catalog: its slot passed every check. -/
theorem accepted_slot {c : Params} {m : Memory} (h : loadCheck c m = none) {id : DataId} {e : EntryRec}
    (he : catRead m id = some e) : ∃ w, checkSlot c m (id.toNat, w) = none ∧ entryPresent w = true ∧
      entryRecord w = e ∧ m.entryAt id = w := by
  unfold catRead at he
  split_ifs at he with hp
  simp only [Option.some.injEq] at he
  have hne : readSlot id.toNat m.entry ≠ unlistedEntry := by
    intro h0
    have : m.entryAt id = 0#32 := h0
    rw [this] at hp
    exact absurd hp (by decide)
  exact ⟨_, loadCheck_slot h (mem_of_readSlot hne), hp, he, rfl⟩

theorem entryWords_length {c : Params} {m : Memory} {e : EntryRec} (h : entryInBounds c m e = true) :
    (entryWords m e).length = e.n.toNat := by
  simp only [entryInBounds, Bool.and_eq_true, decide_eq_true_eq] at h
  simp only [entryWords, List.length_take, List.length_drop]
  omega

/-- An entry of an accepted catalog is in bounds and its descriptors all decode. -/
theorem accepted_entry {c : Params} {m : Memory} (h : loadCheck c m = none) {id : DataId} {e : EntryRec}
    (he : catRead m id = some e) : entryInBounds c m e = true ∧
      ∃ is, entryInstrs m e = some is ∧ is.length = e.n.toNat := by
  obtain ⟨w, hc, hp, hr, _⟩ := accepted_slot h he
  obtain ⟨hb, hw⟩ := checkSlot_none hc hp
  rw [hr] at hb hw
  obtain ⟨is, his, hl⟩ := decodeAll_isSome hw
  have hlen := entryWords_length hb
  exact ⟨hb, is, by rw [entryInstrs, if_pos hlen, his], by rw [hl, hlen]⟩

theorem entryWords_get {m : Memory} {e : EntryRec} {k : Nat} (hk : k < e.n.toNat) :
    (entryWords m e)[k]? = m.descAt (e.base.toNat + k) := by
  simp [entryWords, Memory.descAt, hk, List.getElem?_drop]

/-- The fetch of the k-th descriptor of an entry whose instructions are known. -/
theorem fetchDesc_of_instrs {m : Memory} {t : Txn} {is : List Instr} (h : entryInstrs m t.entry = some is)
    (hk : t.k < t.entry.n.toNat) : ∃ i, is[t.k]? = some i ∧ fetchDesc m t = .ok i := by
  unfold entryInstrs at h
  split_ifs at h with hl
  obtain ⟨_, hg⟩ := decodeAll_get h
  have hw : ∃ w, (entryWords m t.entry)[t.k]? = some w := by
    rw [List.getElem?_eq_getElem (by omega)]; exact ⟨_, rfl⟩
  obtain ⟨w, hw⟩ := hw
  obtain ⟨i, hi, hd⟩ := hg _ w hw
  rw [entryWords_get hk] at hw
  exact ⟨i, hi, by rw [fetchDesc, hw]; simp [hd]⟩

theorem entryInstrs_length {m : Memory} {e : EntryRec} {is : List Instr} (h : entryInstrs m e = some is) :
    is.length = e.n.toNat := by
  unfold entryInstrs at h
  split_ifs at h with hl
  rw [(decodeAll_get h).1, hl]

end Sys2Proof.Machine
end

