-- ==== Sys2Proof/Laws/Operands.lean ====
section
/-! SUPPORT. The operand forms in plain bits: header fields, halves of the payload, bit select, and the visit of a descriptor
that applies. -/

namespace Sys2Proof.Machine

/-- A slice of a slice. -/
theorem extract_extract {n a b l k : Nat} (x : BitVec n) (h : b + k ≤ l) :
    (x.extractLsb' a l).extractLsb' b k = x.extractLsb' (a + b) k := by
  apply BitVec.eq_of_getLsbD_eq
  intro i hi
  simp only [BitVec.getLsbD_extractLsb', hi, decide_true, Bool.true_and, show b + i < l by omega, Nat.add_assoc]

/-- `MT = FRAME[30:28]` (R92). -/
theorem frameMt_eq (w : Word32) : frameMt w = w.extractLsb' 28 3 := by
  have key : ∀ x : Bits8, ((x &&& 0x70#8) >>> 4).setWidth 3 = x.extractLsb' 4 3 := by decide
  rw [frameMt, key, frameB0, extract_extract _ (by omega)]

theorem narrowByte_high (p : Bits16) : narrowByte p .high = p.extractLsb' 8 8 := by
  apply BitVec.eq_of_toNat_eq
  simp only [narrowByte, BitVec.toNat_setWidth, BitVec.toNat_ushiftRight, BitVec.extractLsb'_toNat]

theorem narrowByte_low (p : Bits16) : narrowByte p .low = p.extractLsb' 0 8 := by
  apply BitVec.eq_of_toNat_eq
  simp only [narrowByte, BitVec.toNat_setWidth, BitVec.toNat_and, BitVec.extractLsb'_toNat]
  rw [show (255#16).toNat = 2 ^ 8 - 1 from rfl, Nat.and_two_pow_sub_one_eq_mod]
  omega

/-- The half a byte descriptor reads, straight from the frame. -/
theorem narrowByte_payload (t : Txn) (h : Half) : narrowByte t.payload h = t.halfByte h := by
  cases h with
  | high => rw [narrowByte_high, Txn.payload, framePayload, extract_extract _ (by omega)]; rfl
  | low => rw [narrowByte_low, Txn.payload, framePayload, extract_extract _ (by omega)]; rfl

/-- `V[BIT]` is the same as `(V >> BIT) & 1` (R132). -/
theorem bitSel_eq (v : Bits8) (b : BitVec 3) : bitSel v b = v.getLsbD b.toNat := by
  revert v b
  decide

theorem highByte_toNat (v : Bits16) : (highByte v).toNat = v.toNat / 256 := by
  have := v.isLt
  simp only [highByte, BitVec.extractLsb'_toNat, Nat.shiftRight_eq_div_pow]
  omega

theorem lowByte_toNat (v : Bits16) : (lowByte v).toNat = v.toNat % 256 := by
  simp only [lowByte, BitVec.extractLsb'_toNat, Nat.shiftRight_zero]

/-- A filter that is absent or names the frame's message type lets the descriptor apply (R112). -/
theorem applies_mt {f : Filter} {t : Txn} (h : f = none ∨ f = some (t.frame.extractLsb' 28 3)) :
    applies f t.mt = true := by
  rcases h with rfl | rfl
  · rfl
  · simp [applies, Txn.mt, frameMt_eq]

/-- The visit of a byte descriptor that applies. -/
theorem visitByte_applies {f : Filter} {t : Txn} (h : Half) (name : NameIdx) (conv : Bits8 → Value)
    (hf : applies f t.mt = true) :
    visitByte f h name conv t = t.deliver name (.byte (t.halfByte h)) (conv (t.halfByte h)) := by
  rw [visitByte, if_pos hf, narrowByte_payload]
  cases h <;> simp only [narrow, Half.toSel, narrowByte_payload]

/-- The visit of a word descriptor that applies. -/
theorem visitWord_applies {f : Filter} {t : Txn} (name : NameIdx) (conv : Bits16 → Value)
    (hf : applies f t.mt = true) :
    visitWord f name conv t = t.deliver name (.word t.fullWord) (conv t.fullWord) := by
  rw [visitWord, if_pos hf]
  rfl

/-- A descriptor that does not apply is skipped, whatever its kind (R113). -/
theorem visitByte_skips {f : Filter} {t : Txn} (h : Half) (name : NameIdx) (conv : Bits8 → Value)
    (hf : applies f t.mt = false) : visitByte f h name conv t = t.skip := by
  rw [visitByte, if_neg (by simp [hf])]

theorem visitWord_skips {f : Filter} {t : Txn} (name : NameIdx) (conv : Bits16 → Value)
    (hf : applies f t.mt = false) : visitWord f name conv t = t.skip := by
  rw [visitWord, if_neg (by simp [hf])]

end Sys2Proof.Machine
end

