-- ==== Sys2Proof/Laws/PerInstr.lean ====
section
/-! SUPPORT. One lemma per constructor of `Instr`: its abstract descriptor (30_encoding.md R64) is the one the spec pairs
with its kind, denotes it, and is well formed exactly when its name is in the table (W3, W4, W7). -/

namespace Sys2Proof.Laws.AbstractForm

/-- The abstract form of an instruction, for a name table of any size. -/
def Statement (i : Instr) : Prop :=
  i.toDesc.toInstr = some i ∧ widthPaired i.toDesc.kind i.toDesc.sel = true ∧ i.toDesc.bitPaired = true ∧
    ∀ maxNames : Nat, i.wellFormed maxNames = decide (i.name.toNat < maxNames)

/-- The byte and word pairing of W3, per kind. -/
theorem widthPaired_toDesc (i : Instr) : widthPaired i.toDesc.kind i.toDesc.sel = true := by
  cases i with
  | flag _ h _ _ => cases h <;> rfl
  | u8 _ h _ => cases h <;> rfl
  | s8 _ h _ => cases h <;> rfl
  | _ => rfl

theorem wellFormed_eq (i : Instr) (n : Nat) : i.wellFormed n = decide (i.name.toNat < n) := by
  have hw := widthPaired_toDesc i
  have hb := toDesc_bitPaired i
  unfold Instr.wellFormed Desc.failing
  rw [hw, hb, if_neg (by decide), if_neg (by decide)]
  by_cases h : n ≤ i.toDesc.name.toNat
  · rw [if_pos h]
    exact (decide_eq_false (by unfold Instr.name; omega)).symm
  · rw [if_neg h]
    exact (decide_eq_true (by unfold Instr.name; omega)).symm

theorem holds (i : Instr) : Statement i :=
  ⟨toInstr_toDesc i, widthPaired_toDesc i, toDesc_bitPaired i, wellFormed_eq i⟩

theorem flag (f : Filter) (h : Half) (b : BitVec 3) (n : NameIdx) : Statement (.flag f h b n) := holds _
theorem u8 (f : Filter) (h : Half) (n : NameIdx) : Statement (.u8 f h n) := holds _
theorem s8 (f : Filter) (h : Half) (n : NameIdx) : Statement (.s8 f h n) := holds _
theorem u16 (f : Filter) (n : NameIdx) : Statement (.u16 f n) := holds _
theorem s16 (f : Filter) (n : NameIdx) : Statement (.s16 f n) := holds _
theorem f88 (f : Filter) (n : NameIdx) : Statement (.f88 f n) := holds _
theorem daytime (f : Filter) (n : NameIdx) : Statement (.daytime f n) := holds _
theorem date (f : Filter) (n : NameIdx) : Statement (.date f n) := holds _
theorem year (f : Filter) (n : NameIdx) : Statement (.year f n) := holds _
theorem svc (f : Filter) (n : NameIdx) : Statement (.svc f n) := holds _

end Sys2Proof.Laws.AbstractForm
end

