-- ==== Sys2Proof/Laws/State.lean ====
section
/-! SUPPORT. One lemma per field per update of State and of the transaction in progress. -/

namespace Sys2Proof.Machine

variable (s : State) (t : Txn) (f : FrameIn) (m : Memory) (c : Params) (n : NameIdx) (v : Narrowed) (r : Value)

/-! ## finishTxn -/
@[simp] theorem finishTxn_params : (finishTxn s t).params = s.params := rfl
@[simp] theorem finishTxn_rom : (finishTxn s t).rom = s.rom := rfl
@[simp] theorem finishTxn_boot : (finishTxn s t).boot = s.boot := rfl
@[simp] theorem finishTxn_port : (finishTxn s t).port = s.port := rfl
@[simp] theorem finishTxn_txn : (finishTxn s t).txn = none := rfl
@[simp] theorem finishTxn_output : (finishTxn s t).output = some t.result := rfl
@[simp] theorem finishTxn_draws : (finishTxn s t).draws = s.draws := rfl

/-! ## present, load, configure, applyReset -/
@[simp] theorem present_params : (present f s).params = s.params := rfl
@[simp] theorem present_rom : (present f s).rom = s.rom := rfl
@[simp] theorem present_boot : (present f s).boot = s.boot := rfl
@[simp] theorem present_port : (present f s).port = s.port ++ [f] := rfl
@[simp] theorem present_txn : (present f s).txn = s.txn := rfl
@[simp] theorem present_output : (present f s).output = s.output := rfl
@[simp] theorem present_draws : (present f s).draws = s.draws := rfl
@[simp] theorem load_params : (load m s).params = s.params := rfl
@[simp] theorem load_rom : (load m s).rom = m := rfl
@[simp] theorem load_boot : (load m s).boot = .checkPending := rfl
@[simp] theorem load_port : (load m s).port = [] := rfl
@[simp] theorem load_txn : (load m s).txn = none := rfl
@[simp] theorem load_output : (load m s).output = none := rfl
@[simp] theorem load_draws : (load m s).draws = s.draws := rfl
@[simp] theorem configure_params : (configure c s).params = c := rfl
@[simp] theorem configure_rom : (configure c s).rom = s.rom := rfl
@[simp] theorem configure_boot : (configure c s).boot = .checkPending := rfl
@[simp] theorem configure_port : (configure c s).port = [] := rfl
@[simp] theorem configure_txn : (configure c s).txn = none := rfl
@[simp] theorem configure_output : (configure c s).output = none := rfl
@[simp] theorem configure_draws : (configure c s).draws = s.draws := rfl
@[simp] theorem applyReset_params : (applyReset s).params = s.params := rfl
@[simp] theorem applyReset_rom : (applyReset s).rom = s.rom := rfl
@[simp] theorem applyReset_boot : (applyReset s).boot = s.boot := rfl
@[simp] theorem applyReset_port : (applyReset s).port = [] := rfl
@[simp] theorem applyReset_txn : (applyReset s).txn = none := rfl
@[simp] theorem applyReset_output : (applyReset s).output = none := rfl
@[simp] theorem applyReset_draws : (applyReset s).draws = s.draws := rfl

/-! ## readOutput: only the draw counter can move -/
@[simp] theorem readOutput_params : (readOutput s).2.params = s.params := by unfold readOutput; split <;> rfl
@[simp] theorem readOutput_rom : (readOutput s).2.rom = s.rom := by unfold readOutput; split <;> rfl
@[simp] theorem readOutput_boot : (readOutput s).2.boot = s.boot := by unfold readOutput; split <;> rfl
@[simp] theorem readOutput_port : (readOutput s).2.port = s.port := by unfold readOutput; split <;> rfl
@[simp] theorem readOutput_txn : (readOutput s).2.txn = s.txn := by unfold readOutput; split <;> rfl
@[simp] theorem readOutput_output : (readOutput s).2.output = s.output := by unfold readOutput; split <;> rfl

/-! ## The transaction: skip and deliver -/
@[simp] theorem skip_frame : t.skip.frame = t.frame := rfl
@[simp] theorem skip_entry : t.skip.entry = t.entry := rfl
@[simp] theorem skip_k : t.skip.k = t.k + 1 := rfl
@[simp] theorem skip_v : t.skip.v = t.v := rfl
@[simp] theorem skip_rv : t.skip.rv = t.rv := rfl
@[simp] theorem skip_props : t.skip.props = t.props := rfl
@[simp] theorem deliver_frame : (t.deliver n v r).frame = t.frame := rfl
@[simp] theorem deliver_entry : (t.deliver n v r).entry = t.entry := rfl
@[simp] theorem deliver_k : (t.deliver n v r).k = t.k + 1 := rfl
@[simp] theorem deliver_v : (t.deliver n v r).v = some v := rfl
@[simp] theorem deliver_rv : (t.deliver n v r).rv = some r := rfl
@[simp] theorem deliver_props : (t.deliver n v r).props = insertProp n r t.props := rfl

/-! ## placeWord -/
@[simp] theorem placeWord_params (w : Word32) : (placeWord s w).params = s.params := rfl
@[simp] theorem placeWord_boot (w : Word32) : (placeWord s w).boot = .inOperation := rfl
@[simp] theorem placeWord_port (w : Word32) : (placeWord s w).port = s.port := rfl
@[simp] theorem placeWord_output (w : Word32) : (placeWord s w).output = s.output := rfl
@[simp] theorem placeWord_draws (w : Word32) : (placeWord s w).draws = s.draws := rfl

end Sys2Proof.Machine
end

