-- ==== Sys2Proof/Laws/Step.lean ====
section
/-! SUPPORT. Everything one step can do, said once, and runs of several steps. -/

namespace Sys2Proof.Machine

theorem step_boot {s : State} (h : s.boot = .checkPending) : step s = bootStep s := by
  simp [step, activity, h]

theorem step_accept {s : State} (hb : s.boot = .inOperation) (ht : s.txn = none) : step s = .next (acceptFrame s) := by
  simp [step, activity, hb, ht]

theorem step_visit {s : State} {t : Txn} (hb : s.boot = .inOperation) (ht : s.txn = some t)
    (hk : t.k < t.entry.n.toNat) :
    step s = match fetchDesc s.rom t with
      | .error r => .refused r
      | .ok i => exec i s := by
  have ha : activity s = .visit t := by rw [activity, hb, ht]; simp [hk]
  simp only [step, ha] <;> rfl

theorem step_finish {s : State} {t : Txn} (hb : s.boot = .inOperation) (ht : s.txn = some t)
    (hk : ¬ t.k < t.entry.n.toNat) : step s = .next (finishTxn s t) := by
  have ha : activity s = .finish t := by rw [activity, hb, ht]; simp [hk]
  rw [step, ha]

/-- If a step answers a next state, it is one of: the load check passed, a frame was taken, a descriptor was visited, a
transaction was closed. -/
theorem step_cases {s s' : State} (h : step s = .next s') :
    (s.boot = .checkPending ∧ loadCheck s.params s.rom = none ∧ s' = { s with boot := .inOperation }) ∨
    (s.boot = .inOperation ∧ s.txn = none ∧ s' = acceptFrame s) ∨
    (∃ t i, s.boot = .inOperation ∧ s.txn = some t ∧ t.k < t.entry.n.toNat ∧ fetchDesc s.rom t = .ok i ∧
      s' = { s with txn := some (visitInstr s.params i t) }) ∨
    (∃ t, s.boot = .inOperation ∧ s.txn = some t ∧ ¬ t.k < t.entry.n.toNat ∧ s' = finishTxn s t) := by
  cases hb : s.boot with
  | checkPending =>
    rw [step_boot hb, bootStep] at h
    split at h
    · rename_i hl; cases h; exact .inl ⟨rfl, hl, rfl⟩
    · cases h
  | inOperation =>
    cases ht : s.txn with
    | none => rw [step_accept hb ht] at h; cases h; exact .inr (.inl ⟨rfl, rfl, rfl⟩)
    | some t =>
      by_cases hk : t.k < t.entry.n.toNat
      · rw [step_visit hb ht hk] at h
        split at h
        · cases h
        · rename_i i hi
          rw [exec_of_txn i ht] at h
          cases h
          exact .inr (.inr (.inl ⟨t, i, rfl, rfl, hk, hi, by rw [hb]⟩))
      · rw [step_finish hb ht hk] at h
        cases h
        exact .inr (.inr (.inr ⟨t, rfl, rfl, hk, rfl⟩))

/-- What the acceptance of a frame can do. -/
theorem acceptFrame_cases (s : State) :
    (s.port = [] ∧ acceptFrame s = s) ∨
    (∃ rest, s.port = .invalid :: rest ∧ acceptFrame s = { s with port := rest, output := some .malformed }) ∨
    (∃ w rest, s.port = .valid w :: rest ∧ catRead s.rom (frameId w) = none ∧
      acceptFrame s = { s with port := rest, output := some (.unknownId (frameMt w) (frameId w)) }) ∨
    (∃ w rest e, s.port = .valid w :: rest ∧ catRead s.rom (frameId w) = some e ∧
      acceptFrame s = { s with port := rest, txn := some (openTxn w e) }) := by
  unfold acceptFrame
  split
  · rename_i h; exact .inl ⟨h, rfl⟩
  · rename_i rest h; exact .inr (.inl ⟨rest, h, rfl⟩)
  · rename_i w rest h
    cases hc : catRead s.rom (frameId w) with
    | none => exact .inr (.inr (.inl ⟨w, rest, h, hc, rfl⟩))
    | some e => exact .inr (.inr (.inr ⟨w, rest, e, h, hc, rfl⟩))

/-! ## Runs -/

theorem runSteps_zero (s : State) : runSteps 0 s = .next s := rfl

theorem runSteps_succ_of_next {s s' : State} (h : step s = .next s') (n : Nat) :
    runSteps (n + 1) s = runSteps n s' := by
  rw [runSteps, h]

/-- A run that goes on begins with a step that goes on. -/
theorem step_of_runSteps_succ {s s' : State} {n : Nat} (h : runSteps (n + 1) s = .next s') :
    ∃ s1, step s = .next s1 ∧ runSteps n s1 = .next s' := by
  rw [runSteps] at h
  split at h
  · rename_i s1 h1; exact ⟨s1, h1, h⟩
  · cases h
  · cases h

/-- A run in two parts. -/
theorem runSteps_add {s s' : State} {n : Nat} (m : Nat) (h : runSteps n s = .next s') :
    runSteps (n + m) s = runSteps m s' := by
  induction n generalizing s with
  | zero => rw [runSteps_zero] at h; cases h; rw [Nat.zero_add]
  | succ n ih =>
    obtain ⟨s1, h1, h2⟩ := step_of_runSteps_succ h
    rw [Nat.succ_add, runSteps_succ_of_next h1]
    exact ih h2

theorem core_run_next (M : Host.Core) {n : Nat} {s s' : M.State} (h : M.step s = .next s') :
    M.run (n + 1) s = M.run n s' := by
  rw [Host.Core.run, h]

theorem core_run_fault (M : Host.Core) {n : Nat} {s : M.State} {r : M.Fault} (h : M.step s = .fault r) :
    M.run (n + 1) s = .fault r := by
  rw [Host.Core.run, h]

theorem core_run_refused (M : Host.Core) {n : Nat} {s : M.State} {r : M.Refusal} (h : M.step s = .refused r) :
    M.run (n + 1) s = .refused r := by
  rw [Host.Core.run, h]

/-- The host's run of the core is this run. -/
theorem runSteps_eq_core (n : Nat) : ∀ s : State, Host.Core.run Sys2Proof.core n s = runSteps n s := by
  induction n with
  | zero => intro s; rfl
  | succ n ih =>
    intro s
    cases hs : step s with
    | next s' => exact (core_run_next Sys2Proof.core hs).trans ((ih s').trans (runSteps_succ_of_next hs n).symm)
    | fault r => exact (core_run_fault Sys2Proof.core hs).trans (by rw [runSteps, hs]; rfl)
    | refused r => exact (core_run_refused Sys2Proof.core hs).trans (by rw [runSteps, hs]; rfl)

end Sys2Proof.Machine
end

