-- ==== Sys2Proof/Tests/Slice0.lean ====
section
/-! SUPPORT. Tests, each expected value taken from spec/ (95_test_vectors.md unless a rule is named), and for every obligation
with hypotheses a witness that meets them all. -/

namespace Sys2Proof.Tests

open Sys2Proof.Machine

/-! ## Catalogs of 95_test_vectors.md section 3, word for word -/

/-- P1. -/
def romP1 : Memory where
  entry := [(0, 0x9C000000#32)]
  desc := [0x00000210#32, 0x00010250#32, 0x00021220#32, 0x00031260#32, 0x000412A0#32, 0x000512E0#32, 0x000613A0#32]
  name := ["ch_enable", "dhw_enable", "fault", "ch_active", "dhw_active", "flame_on", "diagnostic"]
  descr := ["Status"]

/-- P2. -/
def romP2 : Memory where
  entry := [(25, 0x84000000#32), (27, 0x88010001#32), (49, 0x88020003#32)]
  desc := [0x00000005#32, 0x00010005#32, 0x00020004#32, 0x00030022#32, 0x00040012#32]
  name := ["boiler_temperature", "outside_temperature", "outside_raw", "ch_setpoint_high", "ch_setpoint_low"]
  descr := ["Boiler water temperature", "Outside temperature", "CH setpoint bounds"]

/-- P3. -/
def romP3 : Memory where
  entry := [(20, 0x84000000#32), (21, 0x84010001#32), (22, 0x84020002#32), (132, 0x84030003#32)]
  desc := [0x00000006#32, 0x00010007#32, 0x00020008#32, 0x00030009#32]
  name := ["day_time", "date", "year", "remeha_service_required"]
  descr := ["Day and time", "Date", "Year", "Remeha service"]

/-- P4. -/
def romP4 : Memory where
  entry := [(100, 0x8C000000#32)]
  desc := [0x00000011#32, 0x00010021#32, 0x00000022#32]
  name := ["x", "y"]
  descr := ["Collision demo"]

/-- P1, the entry of P2 for identifier 49, and P3's for 21, 22 and 132: every constraint K1-K5 of R119. -/
def romK : Memory where
  entry := [(0, 0x9C000000#32), (21, 0x84010007#32), (22, 0x84020008#32), (49, 0x88030009#32), (132, 0x8404000B#32)]
  desc := romP1.desc ++ [0x00070007#32, 0x00080008#32, 0x00090022#32, 0x000A0012#32, 0x000B0009#32]
  name := romP1.name ++ ["date", "year", "ch_setpoint_high", "ch_setpoint_low", "remeha_service_required"]
  descr := ["Status", "Date", "Year", "CH setpoint bounds", "Remeha service"]

/-- In operation on a catalog, with frames presented. -/
def running (m : Memory) (fs : List FrameIn) : State :=
  { State.reset with rom := m, boot := .inOperation, port := fs }

/-- Parameters with one setting changed. -/
def always : Params := { Params.default with guard := .alwaysRender }
def inverted : Params := { Params.default with negMode := .invertHbPlusFraction }
def towardPosInf : Params := { Params.default with tie := .halfTowardPosInf }
def rejecting : Params := { Params.default with rejectCollision := true }

/-- A transaction on `frame` about to visit the descriptor word `w`, alone in `DESC`. -/
def visiting (c : Params) (w frame : Word32) : State :=
  { State.reset with
    params := c
    rom := ⟨[], [w], [], []⟩
    boot := .inOperation
    txn := some (openTxn frame ⟨0, 0, 1⟩) }

/-- The properties after one step. -/
def stepProps (s : State) : Option (List Property) :=
  match step s with
  | .next s' => s'.txn.map Txn.props
  | .fault _ => none
  | .refused _ => none

/-! ## Well-formedness: an ill-formed term for each check (R69) -/

theorem test_w3_byte_kind_full : (Desc.mk none .full .u8 none 0).failing 1 = some .w3 := by decide
theorem test_w3_word_kind_half : (Desc.mk none .high .u16 none 0).failing 1 = some .w3 := by decide
theorem test_w4_bit_on_other_kind : (Desc.mk none .low .u8 (some 1) 0).failing 1 = some .w4 := by decide
theorem test_w4_flag_without_bit : (Desc.mk none .low .flag none 0).failing 1 = some .w4 := by decide
theorem test_w7_name_out_of_table : (Instr.f88 none 1).wellFormed 1 = false := by decide
theorem test_well_formed : (Instr.f88 none 0).wellFormed 1 = true := by decide

/-! ## Descriptor words (R65, section 3 encodings) -/

theorem test_decode_flag : decode 0x000112A0#32 = .ok (.flag (some 4) .low 2 1) := by decide
theorem test_decode_u8 : decode 0x00000011#32 = .ok (.u8 none .high 0) := by decide
theorem test_decode_s8 : decode 0x00030022#32 = .ok (.s8 none .low 3) := by decide
/-- R65: NAME 1023 at 25:16, FMT 7 at 12:10, FV at 9, KIND 3. -/
theorem test_decode_u16 : decode 0x03FF1E03#32 = .ok (.u16 (some 7) 1023) := by decide
theorem test_decode_s16 : decode 0x00020004#32 = .ok (.s16 none 2) := by decide
theorem test_decode_f88 : decode 0x00010005#32 = .ok (.f88 none 1) := by decide
theorem test_decode_daytime : decode 0x00000006#32 = .ok (.daytime none 0) := by decide
theorem test_decode_date : decode 0x00010007#32 = .ok (.date none 1) := by decide
theorem test_decode_year : decode 0x00020008#32 = .ok (.year none 2) := by decide
theorem test_decode_svc : decode 0x00030009#32 = .ok (.svc none 3) := by decide

theorem test_w1 : decode 0x0000000A#32 = .error .w1 := by decide
theorem test_w2 : decode 0x00000030#32 = .error .w2 := by decide
theorem test_w3 : decode 0x00000000#32 = .error .w3 ∧ decode 0x00000013#32 = .error .w3 := by decide
theorem test_w4 : decode 0x00000045#32 = .error .w4 := by decide
theorem test_w5 : decode 0x00000405#32 = .error .w5 := by decide
theorem test_w6 : decode 0x00002005#32 = .error .w6 ∧ decode 0x04000005#32 = .error .w6 := by decide

/-- The host's entry on a word and on a refused one. -/
theorem test_decodeTableWord : decodeTableWord 32 0x000112A0 = some (.flag (some 4) .low 2 1) ∧
    decodeTableWord 32 0 = none := by decide

/-- A word placed for the first step after reset is fetched and run: U8 of HB of a frame with payload 0. -/
theorem test_withFetchWord : stepProps (State.reset.withFetchWord 32 0x00000011) = some [⟨0, .int 0⟩] := by decide

/-! ## The load check on whole catalogs (R69) -/

theorem test_accepts_programs : loadCheck Params.default romP1 = none ∧ loadCheck Params.default romP2 = none ∧
    loadCheck Params.default romP3 = none ∧ loadCheck Params.default romP4 = none := by decide

/-- W7: name index 2 in a table of two. -/
theorem test_refuses_w7 : loadCheck Params.default { romP4 with desc := [0x11#32, 0x00020021#32, 0x22#32] } =
    some ⟨.w7, 100, some 1⟩ := by decide

/-- W8: `PRESENT = 0` with another bit set; `BASE + N` past the table; a description that is not there; `N > MAX_DESC`. -/
theorem test_refuses_w8 :
    loadCheck Params.default { romP4 with entry := [(7, 0x00000001#32)] } = some ⟨.w8, 7, none⟩ ∧
    loadCheck Params.default { romP4 with entry := [(100, 0x8C000001#32)] } = some ⟨.w8, 100, none⟩ ∧
    loadCheck Params.default { romP4 with entry := [(100, 0x8C010000#32)] } = some ⟨.w8, 100, none⟩ ∧
    loadCheck { Params.default with maxDesc := 2 } romP4 = some ⟨.w8, 100, none⟩ := by decide

/-- W9, P4: refused with the parameter, accepted without it. -/
theorem test_refuses_w9 : loadCheck rejecting romP4 = some ⟨.w9, 100, some 2⟩ := by decide

/-! ## Ingress (2.1) -/

theorem test_ingress_case : ingress "4000CcCc" = .valid 0x4000CCCC#32 ∧ ingress "FFFFFFFF" = .valid 0xFFFFFFFF#32 := by decide
theorem test_ingress_malformed : ingress "" = .invalid ∧ ingress "4000CCC" = .invalid ∧ ingress "4000CCCC0" = .invalid ∧
    ingress "4000CCCG" = .invalid ∧ ingress " 4000CCC" = .invalid ∧ ingress "0x00CCCC" = .invalid := by decide

/-! ## Header (2.2) -/

theorem test_header : frameB0 0xCF00FFFF#32 = 0xCF#8 ∧ frameMt 0xCF00FFFF#32 = 4#3 ∧ frameMt 0x8F000000#32 = 0#3 ∧
    frameId 0x20840101#32 = 132#8 ∧ framePayload 0x3015030D#32 = 0x030D#16 := by decide

/-! ## One visit of a descriptor, per kind (2.5 to 2.9) -/

theorem test_flag_set : stepProps (visiting Params.default 0x000112A0#32 0x4000CCCC#32) = some [⟨1, .bool true⟩] := by decide
/-- A Read-Ack filter on a Read-Data frame (2.3). -/
theorem test_flag_filtered : stepProps (visiting Params.default 0x000112A0#32 0x0000CCCC#32) = some [] := by decide
theorem test_u8_high : stepProps (visiting Params.default 0x00000011#32 0x0064FF80#32) = some [⟨0, .int 255⟩] := by decide
theorem test_u8_low : stepProps (visiting Params.default 0x00010021#32 0x0064FF80#32) = some [⟨1, .int 128⟩] := by decide
theorem test_s8_min : stepProps (visiting Params.default 0x00000022#32 0x0064FF80#32) = some [⟨0, .int (-128)⟩] := by decide
theorem test_s8_high : stepProps (visiting Params.default 0x00040012#32 0x1031FF80#32) = some [⟨4, .int (-1)⟩] := by decide
theorem test_u16_max : stepProps (visiting Params.default 0x00000003#32 0x4000FFFF#32) = some [⟨0, .int 65535⟩] := by decide
theorem test_u16_top : stepProps (visiting Params.default 0x00000003#32 0x40008000#32) = some [⟨0, .int 32768⟩] := by decide
theorem test_s16_min : stepProps (visiting Params.default 0x00000004#32 0x40008000#32) = some [⟨0, .int (-32768)⟩] := by decide
theorem test_s16 : stepProps (visiting Params.default 0x00000004#32 0x4000FF38#32) = some [⟨0, .int (-200)⟩] := by decide
theorem test_f88_step : stepProps (visiting Params.default 0x00000005#32 0x40001490#32) = some [⟨0, .fix2 2056⟩] := by decide
theorem test_daytime : stepProps (visiting Params.default 0x00000006#32 0x40144E1E#32) =
    some [⟨0, .daytime 2 14 30⟩] := by decide
theorem test_daytime_guard : stepProps (visiting Params.default 0x00000006#32 0x4014003C#32) = some [⟨0, .int 60⟩] ∧
    stepProps (visiting always 0x00000006#32 0x4014003C#32) = some [⟨0, .daytime 0 0 60⟩] := by decide
theorem test_date : stepProps (visiting Params.default 0x00000007#32 0x3015030D#32) = some [⟨0, .date 3 13⟩] := by decide
theorem test_date_guard : stepProps (visiting Params.default 0x00000007#32 0x30150D01#32) = some [⟨0, .int 3329⟩] ∧
    stepProps (visiting always 0x00000007#32 0x30150D01#32) = some [⟨0, .date 13 1⟩] := by decide
theorem test_year : stepProps (visiting Params.default 0x00000008#32 0x401607E5#32) = some [⟨0, .int 2021⟩] := by decide
theorem test_svc_nibble : stepProps (visiting Params.default 0x00000009#32 0x208401F3#32) = some [⟨0, .service .typeC⟩] := by decide
theorem test_svc_none : stepProps (visiting Params.default 0x00000009#32 0x20840003#32) = some [⟨0, .service .none⟩] := by decide

/-- 2.6, column TC, AWAY. -/
theorem test_f88_tc_away : [0x0002#16, 0x0020#16, 0x7FFF#16, 0x8000#16, 0x80FF#16, 0xF6A0#16, 0xFE60#16, 0xFFE0#16,
    0xFFFF#16].map (convF88 .twosComplement .halfAwayFromZero) =
    ([1, 13, 12800, -12800, -12700, -938, -163, -13, 0] : List Int).map Value.fix2 := by decide
/-- 2.6, column TC, +INF. -/
theorem test_f88_tc_inf : [0x0020#16, 0x8000#16, 0xF6A0#16, 0xFE60#16, 0xFFE0#16, 0xFFFF#16].map
    (convF88 .twosComplement .halfTowardPosInf) = ([13, -12800, -937, -162, -12, 0] : List Int).map Value.fix2 := by decide
/-- 2.6, column INV, AWAY. -/
theorem test_f88_inv_away : [0x1490#16, 0x8000#16, 0x80FF#16, 0xEC70#16, 0xF6A0#16, 0xFF00#16, 0xFFE0#16].map
    (convF88 .invertHbPlusFraction .halfAwayFromZero) =
    ([2056, -12700, -12800, -1944, -963, 0, -88] : List Int).map Value.fix2 := by decide
/-- 2.6, column INV, +INF. -/
theorem test_f88_inv_inf : [0x8000#16, 0xF6A0#16, 0xFE60#16, 0xFFE0#16, 0xFFFF#16].map
    (convF88 .invertHbPlusFraction .halfTowardPosInf) = ([-12700, -962, -137, -87, -100] : List Int).map Value.fix2 := by decide

/-! ## Insertion (2.10) -/

theorem test_insert_overwrites : insertProp 0 (.bool false) [⟨0, .bool true⟩, ⟨1, .int 5⟩] =
    [⟨0, .bool false⟩, ⟨1, .int 5⟩] := by decide
theorem test_insert_appends : insertProp 2 (.fix2 (-50)) [⟨0, .bool true⟩, ⟨1, .int 5⟩] =
    [⟨0, .bool true⟩, ⟨1, .int 5⟩, ⟨2, .fix2 (-50)⟩] := by decide

/-! ## Programs (section 3): text, then results -/

/-- The text of P2. -/
def textP2 : String :=
  "entry 25 \"Boiler water temperature\":\n  f88 W -> boiler_temperature\n" ++
  "entry 27 \"Outside temperature\":\n  f88 W -> outside_temperature\n  s16 W -> outside_raw\n" ++
  "entry 49 \"CH setpoint bounds\":\n  s8 LB -> ch_setpoint_high\n  s8 HB -> ch_setpoint_low\n"

set_option maxRecDepth 4000 in
theorem test_p2_text : romOfText textP2 = some romP2 := by decide

/-- Three lines of P1. -/
theorem test_p1_lines : ["  flag HB.0 -> ch_enable @Read-Data", "  flag LB.2 -> dhw_active @Read-Ack",
      "  flag LB.6 -> diagnostic @Read-Ack"].map (fun str => (readDescLine str.toList).map (lineWord romP1.name)) =
    [some 0x00000210#32, some 0x000412A0#32, some 0x000613A0#32] := by decide
theorem test_p4_text : romOfText "entry 100 \"Collision demo\":\n  u8 HB -> x\n  u8 LB -> y\n  s8 LB -> x\n" = some romP4 := by decide
/-- R73: a repeated `ID` is no catalog; a bit stands only with `flag`. -/
theorem test_text_refused : romOfText "entry 7 \"a\":\nentry 7 \"b\":\n" = none ∧
    romOfText "entry 7 \"a\":\n  u8 HB.1 -> x\n" = none := by decide

theorem test_p1_frames : ["4000CCCC", "00000300", "1000CCCC"].map (fun str => decodeFrame Params.default romP1 (ingress str)) =
    [some (.decoded 4 0 0 [⟨2, .bool false⟩, ⟨3, .bool false⟩, ⟨4, .bool true⟩, ⟨5, .bool true⟩, ⟨6, .bool true⟩]),
     some (.decoded 0 0 0 [⟨0, .bool true⟩, ⟨1, .bool true⟩]),
     some (.decoded 1 0 0 [])] := by decide
theorem test_p2_frames : ["401BFFE0", "10312230"].map (fun str => decodeFrame Params.default romP2 (ingress str)) =
    [some (.decoded 4 27 1 [⟨1, .fix2 (-13)⟩, ⟨2, .int (-32)⟩]),
     some (.decoded 1 49 2 [⟨3, .int 48⟩, ⟨4, .int 34⟩])] := by decide
theorem test_p2_modes : decodeFrame inverted romP2 (ingress "4019FF00") = some (.decoded 4 25 0 [⟨0, .fix2 0⟩]) ∧
    decodeFrame towardPosInf romP2 (ingress "401BFFE0") =
      some (.decoded 4 27 1 [⟨1, .fix2 (-12)⟩, ⟨2, .int (-32)⟩]) := by decide
theorem test_p3_frames : ["4000CCC", "4014ZZZZ", "40FF0000", "40141800", "20840104"].map
      (fun str => decodeFrame Params.default romP3 (ingress str)) =
    [some .malformed, some .malformed, some (.unknownId 4 255), some (.decoded 4 20 0 [⟨0, .int 6144⟩]),
     some (.decoded 2 132 3 [⟨3, .service .unknown⟩])] := by decide
theorem test_p4_frames : decodeFrame Params.default romP4 (ingress "0064FF80") =
    some (.decoded 0 100 0 [⟨0, .int (-128)⟩, ⟨1, .int 128⟩]) := by decide

/-! ## Rendering (2.7 to 2.9) and the port (R180, R181) -/

theorem test_render_daytime : renderValue 0 (.daytime 1 7 5) = .string "monday, 7:5" := by decide
theorem test_render_date : renderValue 0 (.date 0 1) = .string "unknown, 1" ∧
    renderValue 0 (.date 12 31) = .string "december, 31" := by decide
theorem test_render_service : renderValue 0 (.service .typeA) = .string "Type A" := by decide
theorem test_render_unknown : renderResult romP3 0 (.unknownId 4 255) = .object "Read-Ack" 255 "Unknown" [] := by decide
theorem test_port_value : Value.vdata (.int (-1)) = 0x1FFFF#17 ∧ Value.vdata (.daytime 2 14 30) = 0x4E1E#17 ∧
    Value.vdata (.date 3 13) = 0x030D#17 := by decide
theorem test_port_unknown : portOf (.unknownId 4 255) = ⟨1, some 4, some 255, none, 0, []⟩ := by decide

/-! ## Witnesses: for each obligation with hypotheses, concrete data that meets them all -/

/-- A running block satisfies the invariant where its catalog is canonical and accepted. -/
theorem inv_running {m : Memory} {fs : List FrameIn} (h : m.wf = true) (hl : loadCheck Params.default m = none) :
    Inv (running m fs) :=
  ⟨h, fun _ => hl, (fun hb => nomatch hb), (fun _ ht => nomatch ht), (fun _ ho => nomatch ho)⟩

/-- P4 in the middle of frame `0064FF80`: descriptors 0 and 1 visited, descriptor 2 next. -/
def midTxn : Txn := ⟨0x0064FF80#32, ⟨0, 0, 3⟩, 2, some (.byte 128), some (.int 128), [⟨0, .int 255⟩, ⟨1, .int 128⟩]⟩
def midway : State := { running romP4 [] with txn := some midTxn }

/-- The same frame, every descriptor visited. -/
def endTxn : Txn := ⟨0x0064FF80#32, ⟨0, 0, 3⟩, 3, some (.byte 128), some (.int (-128)), [⟨0, .int (-128)⟩, ⟨1, .int 128⟩]⟩
def atEnd : State := { running romP4 [] with txn := some endTxn }

/-- Loaded and not yet checked. -/
def loaded (m : Memory) : State := { State.reset with rom := m }

theorem inv_loaded {m : Memory} (h : m.wf = true) : Inv (loaded m) :=
  ⟨h, (fun hb => nomatch hb), (fun _ => ⟨rfl, rfl⟩), (fun _ ht => nomatch ht), (fun _ ho => nomatch ho)⟩

theorem inv_midway : Inv midway where
  canonical := by decide
  checked := fun _ => by decide
  quiet := fun hb => nomatch hb
  txn := by
    intro t ht
    cases ht
    exact ⟨by decide, by decide, [.u8 none .high 0, .u8 none .low 1, .s8 none .low 0], by decide, by decide⟩
  output := fun _ ho => nomatch ho

theorem inv_atEnd : Inv atEnd where
  canonical := by decide
  checked := fun _ => by decide
  quiet := fun hb => nomatch hb
  txn := by
    intro t ht
    cases ht
    exact ⟨by decide, by decide, [.u8 none .high 0, .u8 none .low 1, .s8 none .low 0], by decide, by decide⟩
  output := fun _ ho => nomatch ho

/-- The transaction of `0064FF80` in progress, and `00640102` waiting. -/
def midwayWaiting : State := { midway with port := [.valid 0x00640102#32] }

theorem inv_midwayWaiting : Inv midwayWaiting :=
  ⟨inv_midway.canonical, inv_midway.checked, inv_midway.quiet, inv_midway.txn, inv_midway.output⟩

theorem witness_ResetChangesNoLaterResult : Inv midwayWaiting ∧ midwayWaiting.boot = .inOperation :=
  ⟨inv_midwayWaiting, rfl⟩

/-- R230, I15: neither the frame in progress nor the one that waits has a result after reset. -/
theorem test_reset_abandons : step (applyReset midwayWaiting) = .next (running romP4 []) := rfl

theorem witness_BootStepRunsLoadCheck : (loaded romP4).boot = .checkPending ∧
    loadCheck (loaded romP4).params (loaded romP4).rom = none ∧
    (loaded { romP4 with desc := [] }).boot = .checkPending ∧
    loadCheck Params.default (loaded { romP4 with desc := [] }).rom = some ⟨.w8, 100, none⟩ := by decide

theorem witness_LoadedCatalogIsCheckedFirst : step (load romP4 midwayWaiting) = .next (running romP4 []) := rfl

theorem witness_LoadCheckAcceptsExactly : romP4.wf = true ∧ loadCheck Params.default romP4 = none ∧
    loadCheck rejecting romP4 ≠ none := by decide

/-- A refusal of an entry word (absent and not zero; too many descriptors), of one of W1-W7, and of W9. -/
theorem witness_RefusalNamesFailingCheck : romP4.wf = true ∧
    loadCheck Params.default { romP4 with entry := [(7, 0x00000001#32)] } = some ⟨.w8, 7, none⟩ ∧
    loadCheck { Params.default with maxDesc := 2 } romP4 = some ⟨.w8, 100, none⟩ ∧
    loadCheck Params.default { romP4 with desc := [0x11#32, 0x0A#32, 0x22#32] } = some ⟨.w1, 100, some 1⟩ ∧
    loadCheck rejecting romP4 = some ⟨.w9, 100, some 2⟩ := by decide

theorem witness_AbstractDescriptorDenotes :
    (Desc.mk (some 4) .low .flag (some 7) 1023).toInstr = some (.flag (some 4) .low 7 1023) ∧
    (Desc.mk none .full .flag (some 7) 0).toInstr = none := by decide

theorem witness_DecodedWordIsItsEncoding : decode 0x03FF1FE0#32 = .ok (.flag (some 7) .low 7 1023) := by decide

/-- A present entry, an absent one, and two identifiers. -/
theorem witness_LoadedEntryReadsBack : romP2.wf = true ∧ (26 : DataId) ≠ 27 ∧ (romP2.entryAt 27).getLsbD 31 = true ∧
    (romP2.entryAt 26).getLsbD 31 = false := by decide

/-- R73 on two entries: identifiers 255 and 0 are written, 1 is not. -/
def twoEntries : List EntryText :=
  [⟨255, "b", [⟨.u8, .high, none, "x", none⟩, ⟨.u8, .low, none, "y", none⟩]⟩, ⟨0, "a", [⟨.s8, .low, none, "x", some 4⟩]⟩]

theorem witness_AssembledTextLayout :
    assembleRom twoEntries = some ⟨[(0, 0x84010002#32), (255, 0x88000000#32)], [0x11#32, 0x00010021#32, 0x1222#32],
      ["x", "y"], ["b", "a"]⟩ ∧
    (twoEntries[0]?).isSome ∧ (twoEntries[1]?).isSome ∧ ∀ e ∈ twoEntries, e.ident ≠ (1 : DataId).toNat := by decide

theorem witness_HeaderFieldsOfBytes : (0xCF00FF80#32 : Word32).toNat =
    (0xCF#8).toNat * 2 ^ 24 + (0x00#8).toNat * 2 ^ 16 + (0xFF#8).toNat * 2 ^ 8 + (0x80#8).toNat := by decide

theorem witness_IgnoredHeaderBits : ∀ i, i < 32 → i ≠ 31 → ¬ (24 ≤ i ∧ i ≤ 27) →
    (0x4000CCCC#32).getLsbD i = (0xCF00CCCC#32).getLsbD i := by decide

/-- Digits 0 and 15, a lower and an upper case one. -/
theorem witness_IngressOfHexDigits : "0f9Aa0F0".toList.length = 8 ∧
    ∀ i : Fin 8, ∃ c, "0f9Aa0F0".toList[i.val]? = some c ∧ [0, 15, 9, 10, 10, 0, 15, 0].getD i.val 0 < 16 ∧
      (c = "0123456789abcdef".toList.getD ([0, 15, 9, 10, 10, 0, 15, 0].getD i.val 0) 'x' ∨
        c = "0123456789ABCDEF".toList.getD ([0, 15, 9, 10, 10, 0, 15, 0].getD i.val 0) 'x') := by
  refine ⟨by decide, fun i => ⟨"0f9Aa0F0".toList.getD i.val 'x', ?_⟩⟩
  revert i
  decide

theorem witness_IngressRejectsExactly : "4000CCC".toList.length ≠ 8 ∧ "4000CCCG".toList.length = 8 ∧
    'G' ∈ "4000CCCG".toList ∧ 'G' ∉ "0123456789abcdefABCDEF".toList := by decide

theorem witness_StepRunsDecodedInstr : midway.boot = .inOperation ∧ midway.txn = some midTxn ∧
    midTxn.k < midTxn.entry.n.toNat ∧ midway.rom.desc[midTxn.entry.base.toNat + midTxn.k]? = some 0x22#32 ∧
    decode 0x22#32 = .ok (.s8 none .low 0) := by decide

/-- One port value for each outcome. -/
theorem witness_AcceptedFrameOutcomes : (running romP4 [.invalid]).ready ∧ (running romP4 [.valid 0x40FF0000#32]).ready ∧
    catRead romP4 ((0x40FF0000#32 : Word32).extractLsb' 16 8) = none ∧ (running romP4 [.valid 0x0064FF80#32]).ready ∧
    catRead romP4 ((0x0064FF80#32 : Word32).extractLsb' 16 8) = some ⟨0, 0, 3⟩ :=
  ⟨⟨rfl, rfl⟩, ⟨rfl, rfl⟩, by decide, ⟨rfl, rfl⟩, by decide⟩

theorem witness_FinishedTransactionGivesResult : atEnd.boot = .inOperation ∧ atEnd.txn = some endTxn ∧
    endTxn.k = endTxn.entry.n.toNat := by decide

theorem witness_StepWritesNoConfiguration : step midway = .next atEnd := rfl

theorem witness_LatencyChangesNothing : step midway = .next atEnd ∧
    step (loaded { romP4 with desc := [] }) = .refused (.catalogRefused ⟨.w8, 100, none⟩) := ⟨rfl, rfl⟩

theorem witness_FilteredDescriptorIsSkipped : midway.txn = some midTxn ∧ (Instr.u16 (some 4) 0).filter = some 4#3 ∧
    (4 : MT3) ≠ midTxn.frame.extractLsb' 28 3 := by decide

/-- The hypotheses of the ten statements on a descriptor that applies, for a filter and a frame. -/
abbrev Meets (f : Filter) (frame : Word32) : Prop :=
  (visiting Params.default 0x11#32 frame).txn = some (openTxn frame ⟨0, 0, 1⟩) ∧
    (f = none ∨ f = some ((openTxn frame ⟨0, 0, 1⟩).frame.extractLsb' 28 3))

/-- FLAG with and without a filter. -/
theorem witness_FlagDeliversBit : Meets (some 4) 0x4000CCCC#32 ∧ Meets none 0x4000CCCC#32 := by decide
theorem witness_UnsignedByteDelivers : Meets (some 7) 0x700000FF#32 ∧ Meets none 0x00000000#32 := by decide
/-- The largest positive and the smallest negative byte. -/
theorem witness_SignedByteDelivers : Meets none 0x00007F00#32 ∧ Meets (some 0) 0x00008000#32 := by decide
theorem witness_UnsignedWordDelivers : Meets none 0x0000FFFF#32 ∧ Meets (some 1) 0x10000000#32 := by decide
/-- The largest positive and the smallest negative word. -/
theorem witness_SignedWordDelivers : Meets none 0x00007FFF#32 ∧ Meets (some 1) 0x10008000#32 := by decide
/-- The ends of the range: 0x7FFF and 0x8000. -/
theorem witness_FixedPointDelivers : Meets none 0x00007FFF#32 ∧ Meets (some 5) 0x50008000#32 := by decide
/-- 23:59, 24:59 and 23:60. -/
theorem witness_DaytimeDelivers : Meets none 0x4014173B#32 ∧ Meets (some 4) 0x4014183B#32 ∧ Meets none 0x4014173C#32 := by decide
/-- Month 12 day 1, month 12 day 31, month 13 day 1, month 12 day 0 and day 32. -/
theorem witness_DateDelivers : Meets none 0x40150C01#32 ∧ Meets (some 4) 0x40150C1F#32 ∧ Meets none 0x40150D01#32 ∧
    Meets none 0x40150C00#32 ∧ Meets none 0x40150C20#32 := by decide
theorem witness_YearDelivers : Meets none 0x401607E5#32 ∧ Meets (some 4) 0x401607E5#32 := by decide
/-- High byte 0, and the nibbles 0, 1, 2, 3 and 4 with high byte 1. -/
theorem witness_ServiceCodeDelivers : Meets none 0x20840001#32 ∧ Meets (some 2) 0x20840100#32 ∧ Meets none 0x20840101#32 ∧
    Meets none 0x20840102#32 ∧ Meets none 0x20840103#32 ∧ Meets none 0x20840104#32 := by decide

/-- `s8 LB -> x` overwrites name 0 and leaves name 1. -/
theorem witness_InstructionFrame : exec (.s8 none .low 0) midway = .next atEnd ∧ (1 : NameIdx) ≠ (Instr.s8 none .low 0).name ∧
    (0 : NameIdx) ∈ namesOf midTxn.props := ⟨rfl, by decide, by decide⟩

theorem witness_NoTransactionStops : (running romP4 []).txn = none := rfl

/-- A name that is there and one that is not. -/
theorem witness_InsertIsLastWriteWins : (0 : NameIdx) ∈ namesOf midTxn.props ∧ (1023 : NameIdx) ∉ namesOf midTxn.props ∧
    (namesOf midTxn.props).Nodup := by decide

/-- P1's filters differ, so no two of its descriptors collide. -/
theorem witness_RejectedCollisionsNeverOverwrite : loadCheck rejecting romP1 = none ∧ rejecting.rejectCollision = true ∧
    catRead romP1 0 = some ⟨0, 0, 7⟩ ∧ (entryInstrs romP1 ⟨0, 0, 7⟩).isSome := by decide

/-- `MAX_DESC` at the entry's own number of descriptors. -/
theorem witness_TransactionIsBounded : loadCheck { Params.default with maxDesc := 3 } romP4 = none ∧
    decodeFrame { Params.default with maxDesc := 3 } romP4 (.valid 0x0064FF80#32) =
      some (.decoded 0 100 0 [⟨0, .int (-128)⟩, ⟨1, .int 128⟩]) := by decide

theorem witness_PortCarriesValue : ∀ v ∈ [Value.bool true, .int (-32768), .int 65535, .fix2 (-12800), .fix2 12800,
    .daytime 7 31 255, .date 255 255, .service .unknown], v.inRange = true := by decide

/-- One result of each status. -/
theorem witness_PortCountsProperties : loadCheck Params.default romP4 = none ∧
    decodeFrame Params.default romP4 (.valid 0x0064FF80#32) =
      some (.decoded 0 100 0 [⟨0, .int (-128)⟩, ⟨1, .int 128⟩]) ∧
    decodeFrame Params.default romP4 (.valid 0x40FF0000#32) = some (.unknownId 4 255) ∧
    decodeFrame Params.default romP4 .invalid = some .malformed ∧ (portOf .malformed).status ≠ 0#2 := by decide

theorem witness_StatusOfOutcome : decodeFrame Params.default romP4 .invalid = some .malformed ∧
    decodeFrame Params.default romP4 (.valid 0x40FF0000#32) = some (.unknownId 4 255) := by decide

theorem witness_NegativeFixedPointRange : (0x8000#16).getLsbD 15 = true ∧ (0xFFFF#16).getLsbD 15 = true ∧
    (0xFF00#16).getLsbD 15 = true := by decide

/-- Both sides of the equivalence: a negative tie, and its positive twin. -/
theorem witness_TieModesDifferOnNegativeTies : (0xFFE0#16).getLsbD 15 = true ∧ lowByte 0xFFE0#16 = 0xE0#8 ∧
    (0x00E0#16).getLsbD 15 = false := by decide

theorem witness_RenderedValues : 13 ≤ (13 : Bits8).toNat ∧ (12 : Bits8).toNat < 13 := by decide

theorem witness_RenderedResults : midTxn.props[1]? = some ⟨1, .int 128⟩ ∧
    ["Read-Data", "Write-Data", "Invalid-Data", "Reserved", "Read-Ack", "Write-Ack", "Data-Invalid",
      "Unknown-DataId"][(7 : MT3).toNat]? = some "Unknown-DataId" := by decide

/-- A state of the invariant before each of the four kinds of step. -/
theorem witness_StepKeepsInv :
    (Inv (loaded romP4) ∧ step (loaded romP4) = .next (running romP4 [])) ∧
    (Inv (running romP4 [.valid 0x0064FF80#32]) ∧ step (running romP4 [.valid 0x0064FF80#32]) =
      .next { running romP4 [] with txn := some (openTxn 0x0064FF80#32 ⟨0, 0, 3⟩) }) ∧
    (Inv midway ∧ step midway = .next atEnd) ∧
    (Inv atEnd ∧ step atEnd =
      .next { running romP4 [] with output := some (.decoded 0 100 0 [⟨0, .int (-128)⟩, ⟨1, .int 128⟩]) }) :=
  ⟨⟨inv_loaded (by decide), rfl⟩, ⟨inv_running (by decide) (by decide), rfl⟩, ⟨inv_midway, rfl⟩, ⟨inv_atEnd, rfl⟩⟩

theorem witness_HostActionsKeepInv : Inv midway ∧ (HostAction.load romP1).legal = true ∧ HostAction.reset.legal = true :=
  ⟨inv_midway, by decide, rfl⟩

theorem witness_OperationNeverStops : Inv midway ∧ midway.boot = .inOperation := ⟨inv_midway, rfl⟩

/-- Load P3, check it, present `401607E5`, take it, visit its descriptor, close it. -/
theorem witness_ReachableOutputsAreSound : ∃ s, Reachable s ∧ s.output = some (.decoded 4 22 2 [⟨2, .int 2021⟩]) := by
  have h0 : Reachable (load romP3 State.reset) := .host (.load romP3) .reset (by decide)
  have h1 : Reachable (running romP3 []) := .step h0 rfl
  have h2 : Reachable (running romP3 [.valid 0x401607E5#32]) := .host (.present (.valid 0x401607E5#32)) h1 rfl
  have h3 : Reachable { running romP3 [] with txn := some (openTxn 0x401607E5#32 ⟨2, 2, 1⟩) } := .step h2 rfl
  have h4 : Reachable { running romP3 [] with
      txn := some ⟨0x401607E5#32, ⟨2, 2, 1⟩, 1, some (.word 0x07E5), some (.int 2021), [⟨2, .int 2021⟩]⟩ } := .step h3 rfl
  exact ⟨_, .step h4 rfl, rfl⟩

theorem witness_TransactionRefinesDecode : Inv (running romP4 [.valid 0x0064FF80#32]) ∧
    (running romP4 [.valid 0x0064FF80#32]).ready ∧
    (running romP4 [.valid 0x0064FF80#32]).port = .valid 0x0064FF80#32 :: [] :=
  ⟨inv_running (by decide) (by decide), ⟨rfl, rfl⟩, rfl⟩

theorem witness_StreamResultsAreIndependent :
    Inv (running romP4 [.invalid, .valid 0x40FF0000#32, .valid 0x0064FF80#32]) ∧
    (running romP4 [.invalid, .valid 0x40FF0000#32, .valid 0x0064FF80#32]).ready ∧
    (running romP4 [.invalid, .valid 0x40FF0000#32, .valid 0x0064FF80#32]).port =
      [.invalid, .valid 0x40FF0000#32] ++ .valid 0x0064FF80#32 :: [] :=
  ⟨inv_running (by decide) (by decide), ⟨rfl, rfl⟩, rfl⟩

/-- A catalog with K1-K5 is admitted, and every pin is one of the spec's (R119). -/
theorem witness_AdmittedCatalogsGiveSourceFrames :
    Inv (running romK [.valid 0x3015030D#32]) ∧ (running romK [.valid 0x3015030D#32]).ready ∧
    admitted Params.default romK = true ∧
    ⟨0x3015030D#32, "date", .date 3 13, .string "march, 13", fun f n => .date f n⟩ ∈ pins := by
  refine ⟨inv_running (by decide) (by decide), ⟨rfl, rfl⟩, by decide, ?_⟩
  simp [pins]

theorem witness_SourceDescriptorsGiveSourceValues :
    Inv (running romK [.valid 0x20840101#32]) ∧ (running romK [.valid 0x20840101#32]).ready ∧
    ∃ pin ∈ pins, pinSole romK pin = true ∧ pin.frame = 0x20840101#32 := by
  refine ⟨inv_running (by decide) (by decide), ⟨rfl, rfl⟩,
    ⟨0x20840101#32, "remeha_service_required", .service .typeA, .string "Type A", fun f n => .svc f n⟩, ?_, by decide, rfl⟩
  simp [pins]

/-- P4 after frame `0064FF80`. -/
def shown : State := { running romP4 [] with output := some (.decoded 0 100 0 [⟨0, .int (-128)⟩, ⟨1, .int 128⟩]) }

theorem witness_ShownResultsAreSound : Inv shown ∧
    shown.output = some (.decoded 0 100 0 [⟨0, .int (-128)⟩, ⟨1, .int 128⟩]) :=
  ⟨⟨by decide, fun _ => by decide, (fun hb => nomatch hb), (fun _ ht => nomatch ht), fun _ ho => by
    cases ho
    exact ⟨.valid 0x0064FF80#32, by decide⟩⟩, rfl⟩

end Sys2Proof.Tests
end

/-! PROOFS. The state of the block (10_state.md): the outcomes of DECODE and their STATUS, the invariant of the
machine, and streams of frames. -/

namespace Sys2Proof.Machine

/-! ## The outcomes of DECODE (R115, R205) -/

@[simp] theorem decodeFrame_invalid (c : Params) (m : Memory) : decodeFrame c m .invalid = some .malformed := rfl

theorem decodeFrame_of_absent {m : Memory} {w : Word32} (c : Params) (hc : catRead m (frameId w) = none) :
    decodeFrame c m (.valid w) = some (.unknownId (frameMt w) (frameId w)) := by
  simp only [decodeFrame, hc]

theorem decodeFrame_of_present {m : Memory} {w : Word32} {e : EntryRec} (c : Params)
    (hc : catRead m (frameId w) = some e) :
    decodeFrame c m (.valid w) = (entryInstrs m e).map fun is =>
      .decoded (frameMt w) (frameId w) e.descr (assemble c (frameMt w) (framePayload w) is []) := by
  simp only [decodeFrame, hc]

/-- The three outcomes of a frame, in the order of R205. -/
theorem decodeFrame_cases {c : Params} {m : Memory} {f : FrameIn} {r : Result} (h : decodeFrame c m f = some r) :
    (f = .invalid ∧ r = .malformed) ∨
    (∃ w, f = .valid w ∧ catRead m (frameId w) = none ∧ r = .unknownId (frameMt w) (frameId w)) ∨
    (∃ w e props, f = .valid w ∧ catRead m (frameId w) = some e ∧
      r = .decoded (frameMt w) (frameId w) e.descr props) := by
  cases f with
  | invalid => exact .inl ⟨rfl, (Option.some.inj h).symm⟩
  | valid w =>
    cases hc : catRead m (frameId w) with
    | none =>
      rw [decodeFrame_of_absent c hc] at h
      exact .inr (.inl ⟨w, rfl, hc, (Option.some.inj h).symm⟩)
    | some e =>
      rw [decodeFrame_of_present c hc] at h
      obtain ⟨is, _, hr⟩ := Option.map_eq_some_iff.mp h
      exact .inr (.inr ⟨w, e, _, rfl, hc, hr.symm⟩)

@[simp] theorem status_malformed : Result.malformed.status = 2#2 := rfl
@[simp] theorem status_unknownId (mt : MT3) (id : DataId) : (Result.unknownId mt id).status = 1#2 := rfl
@[simp] theorem status_decoded (mt : MT3) (id : DataId) (d : BitVec 10) (ps : List Property) :
    (Result.decoded mt id d ps).status = 0#2 := rfl

/-- Settles O44, by the three outcomes of DECODE. -/
theorem statusOfOutcome : Obligations.StatusOfOutcome := by
  unfold Obligations.StatusOfOutcome
  intro c m f r h
  rcases decodeFrame_cases h with ⟨rfl, rfl⟩ | ⟨w, rfl, hc, rfl⟩ | ⟨w, e, props, rfl, hc, rfl⟩
  · simp [Result.errMalformed, Result.idKnown]
  · simp [Result.errMalformed, Result.idKnown, hc]
  · simp [Result.errMalformed, Result.idKnown, hc]

/-! ## No transaction (R20; log 14) -/

theorem withTxn_of_none {s : State} (f : Txn → Txn) (h : s.txn = none) : withTxn s f = .fault .noTransaction := by
  rw [withTxn, h]

/-- Settles O36: every meaning is a visit of the transaction in progress, and there is none. -/
theorem noTransactionStops : Obligations.NoTransactionStops := by
  unfold Obligations.NoTransactionStops
  intro i s h
  rw [exec_eq_visit, withTxn_of_none _ h]

/-! ## The life of a sound transaction: opened, visited, closed (R113, R115) -/

/-- A transaction opened on a present identifier of an accepted catalog has visited nothing. -/
theorem txnSound_openTxn {c : Params} {m : Memory} {w : Word32} {e : EntryRec} (hl : loadCheck c m = none)
    (hc : catRead m (frameId w) = some e) : TxnSound c m (openTxn w e) := by
  obtain ⟨_, is, his, _⟩ := accepted_entry hl hc
  exact ⟨hc, Nat.zero_le _, is, his, rfl⟩

/-- A sound transaction with a descriptor left fetches it, and its visit is the next iteration of DECODE's loop. -/
theorem TxnSound.visit {c : Params} {m : Memory} {t : Txn} (h : TxnSound c m t) (hk : t.k < t.entry.n.toNat) :
    ∃ i, fetchDesc m t = .ok i ∧ TxnSound c m (visitInstr c i t) := by
  obtain ⟨hentry, -, is, his, hprops⟩ := h
  obtain ⟨i, hi, hf⟩ := fetchDesc_of_instrs his hk
  refine ⟨i, hf, by simpa using hentry, by simpa using hk, is, by simpa using his, ?_⟩
  rw [visitInstr_props, hprops, visitInstr_mt, visitInstr_payload, visitInstr_k, assemble_take_succ c _ _ hi]

/-- A sound transaction with no descriptor left has DECODE's result of its frame. -/
theorem TxnSound.decodeFrame_eq_result {c : Params} {m : Memory} {t : Txn} (h : TxnSound c m t)
    (hk : ¬ t.k < t.entry.n.toNat) : decodeFrame c m (.valid t.frame) = some t.result := by
  obtain ⟨hentry, -, is, his, hprops⟩ := h
  have hall : is.take t.k = is := List.take_of_length_le (by rw [entryInstrs_length his]; omega)
  rw [hall] at hprops
  rw [decodeFrame_of_present c hentry, his, Option.map_some, Txn.result, hprops]
  rfl

/-! ## Every step keeps the invariant -/

/-- The passing load check, which begins operation, keeps the invariant (R233). -/
theorem Inv.booted {s : State} (h : Inv s) (hl : loadCheck s.params s.rom = none) :
    Inv { s with boot := .inOperation } :=
  ⟨h.canonical, fun _ => hl, (fun hb => nomatch hb), h.txn, h.output⟩

/-- In operation any port, with a sound transaction and some frame's result, keeps the invariant. -/
theorem Inv.updated {s : State} (h : Inv s) (hb : s.boot = .inOperation) (port : List FrameIn) {txn : Option Txn}
    {output : Option Result} (ht : ∀ t, txn = some t → TxnSound s.params s.rom t)
    (ho : ∀ r, output = some r → ∃ f, decodeFrame s.params s.rom f = some r) :
    Inv { s with port := port, txn := txn, output := output } :=
  ⟨h.canonical, h.checked, (fun hp => nomatch hb.symm.trans hp), ht, ho⟩

/-- `Inv.updated` where the output register takes the result of `f`. -/
theorem Inv.answered {s : State} (h : Inv s) (hb : s.boot = .inOperation) (port : List FrameIn) {txn : Option Txn}
    (ht : ∀ t, txn = some t → TxnSound s.params s.rom t) {f : FrameIn} {r : Result}
    (hr : decodeFrame s.params s.rom f = some r) : Inv { s with port := port, txn := txn, output := some r } :=
  h.updated hb port ht fun _ he => ⟨f, hr.trans he⟩

/-- `Inv.updated` where the transaction in progress becomes `t`. -/
theorem Inv.inTxn {s : State} (h : Inv s) (hb : s.boot = .inOperation) (port : List FrameIn) {t : Txn}
    (ht : TxnSound s.params s.rom t) : Inv { s with port := port, txn := some t } :=
  h.updated hb port (fun _ he => Option.some.inj he ▸ ht) h.output

theorem Inv.accepted {s : State} (h : Inv s) (hb : s.boot = .inOperation) : Inv (acceptFrame s) := by
  rcases acceptFrame_cases s with ⟨_, he⟩ | ⟨rest, _, he⟩ | ⟨w, rest, _, hc, he⟩ | ⟨w, rest, e, _, hc, he⟩ <;> rw [he]
  · exact h
  · exact h.answered hb rest h.txn (decodeFrame_invalid _ _)
  · exact h.answered hb rest h.txn (decodeFrame_of_absent _ hc)
  · exact h.inTxn hb rest (txnSound_openTxn (h.checked hb) hc)

/-- Settles O49, by what one step can do. -/
theorem stepKeepsInv : Obligations.StepKeepsInv := by
  unfold Obligations.StepKeepsInv
  intro s s' h hs
  rcases step_cases hs with ⟨_, hl, rfl⟩ | ⟨hb, _, rfl⟩ | ⟨t, i, hb, ht, hk, hi, rfl⟩ | ⟨t, hb, ht, hk, rfl⟩
  · exact h.booted hl
  · exact h.accepted hb
  · obtain ⟨j, hj, hsound⟩ := (h.txn t ht).visit hk
    obtain rfl : i = j := Except.ok.inj (hi.symm.trans hj)
    exact h.inTxn hb s.port hsound
  · exact h.answered hb s.port (txn := none) (fun _ he => nomatch he) ((h.txn t ht).decodeFrame_eq_result hk)

/-! ## The steps of a stream give DECODE's results (R27, R115) -/

theorem stepsOf_of_absent {m : Memory} {w : Word32} (hc : catRead m (frameId w) = none) :
    stepsOf m (.valid w) = 1 := by
  simp only [stepsOf, hc]

theorem stepsOf_of_present {m : Memory} {w : Word32} {e : EntryRec} (hc : catRead m (frameId w) = some e) :
    stepsOf m (.valid w) = e.n.toNat + 2 := by
  simp only [stepsOf, hc]

/-- The rest of a sound transaction, `d` visits and the closing step, gives DECODE's result of its frame. -/
theorem runSteps_txn {d : Nat} : ∀ {s : State} {t : Txn}, s.boot = .inOperation → s.txn = some t →
    TxnSound s.params s.rom t → t.entry.n.toNat = t.k + d →
    ∃ r, decodeFrame s.params s.rom (.valid t.frame) = some r ∧
      runSteps (d + 1) s = .next { s with txn := none, output := some r } := by
  induction d with
  | zero =>
    intro s t hb ht hsound hd
    have hk : ¬ t.k < t.entry.n.toNat := by omega
    exact ⟨t.result, hsound.decodeFrame_eq_result hk, runSteps_succ_of_next (step_finish hb ht hk) 0⟩
  | succ d ih =>
    intro s t hb ht hsound hd
    have hk : t.k < t.entry.n.toNat := by omega
    obtain ⟨i, hi, hsound'⟩ := hsound.visit hk
    have hstep : step s = .next { s with txn := some (visitInstr s.params i t) } := by
      rw [step_visit hb ht hk, hi]
      exact exec_of_txn i ht
    have hd' : (visitInstr s.params i t).entry.n.toNat = (visitInstr s.params i t).k + d := by
      rw [visitInstr_entry, visitInstr_k]; omega
    obtain ⟨r, hr, hrun⟩ := ih (s := { s with txn := some (visitInstr s.params i t) }) hb rfl hsound' hd'
    rw [visitInstr_frame] at hr
    exact ⟨r, hr, (runSteps_succ_of_next hstep _).trans hrun⟩

theorem acceptFrame_of_invalid {s : State} {rest : List FrameIn} (hp : s.port = .invalid :: rest) :
    acceptFrame s = { s with port := rest, output := some .malformed } := by
  simp only [acceptFrame, hp]

theorem acceptFrame_of_absent {s : State} {w : Word32} {rest : List FrameIn} (hp : s.port = .valid w :: rest)
    (hc : catRead s.rom (frameId w) = none) :
    acceptFrame s = { s with port := rest, output := some (.unknownId (frameMt w) (frameId w)) } := by
  simp only [acceptFrame, hp, hc]

theorem acceptFrame_of_present {s : State} {w : Word32} {rest : List FrameIn} {e : EntryRec}
    (hp : s.port = .valid w :: rest) (hc : catRead s.rom (frameId w) = some e) :
    acceptFrame s = { s with port := rest, txn := some (openTxn w e) } := by
  simp only [acceptFrame, hp, hc]

/-- One transaction from a ready state: DECODE's result, and nothing but the port and the output register changed. -/
theorem runSteps_transaction {s : State} (h : Inv s) (hs : s.ready) {f : FrameIn} {rest : List FrameIn}
    (hp : s.port = f :: rest) : ∃ r, decodeFrame s.params s.rom f = some r ∧
      runSteps (stepsOf s.rom f) s = .next { s with port := rest, output := some r } := by
  obtain ⟨hb, ht⟩ := hs
  have hstep : step s = .next (acceptFrame s) := step_accept hb ht
  cases f with
  | invalid =>
    rw [acceptFrame_of_invalid hp] at hstep
    exact ⟨_, decodeFrame_invalid _ _, runSteps_succ_of_next hstep 0⟩
  | valid w =>
    cases hc : catRead s.rom (frameId w) with
    | none =>
      rw [acceptFrame_of_absent hp hc] at hstep
      rw [stepsOf_of_absent hc]
      exact ⟨_, decodeFrame_of_absent _ hc, runSteps_succ_of_next hstep 0⟩
    | some e =>
      rw [acceptFrame_of_present hp hc] at hstep
      obtain ⟨r, hr, hrun⟩ := runSteps_txn (s := { s with port := rest, txn := some (openTxn w e) }) hb rfl
        (txnSound_openTxn (h.checked hb) hc) (Nat.zero_add _).symm
      refine ⟨r, hr, ?_⟩
      rw [stepsOf_of_present hc, runSteps_succ_of_next hstep, ht]
      exact hrun

@[simp] theorem stepsOfStream_nil (m : Memory) : stepsOfStream m [] = 0 := rfl

@[simp] theorem stepsOfStream_cons (m : Memory) (f : FrameIn) (fs : List FrameIn) :
    stepsOfStream m (f :: fs) = stepsOf m f + stepsOfStream m fs := by
  simp [stepsOfStream]

/-- Settles O54, by induction on the frames before: each ends in a ready state of the invariant with the same catalog and
parameters. -/
theorem streamResultsAreIndependent : Obligations.StreamResultsAreIndependent := by
  unfold Obligations.StreamResultsAreIndependent
  intro s fs
  induction fs generalizing s with
  | nil =>
    intro f rest h hs hp
    simpa using runSteps_transaction h hs hp
  | cons g gs ih =>
    intro f rest h hs hp
    obtain ⟨rg, hg, hrun⟩ := runSteps_transaction h hs hp
    obtain ⟨r, hr, hrest⟩ := ih { s with port := gs ++ f :: rest, output := some rg } f rest
      (h.answered hs.1 _ h.txn hg) hs rfl
    refine ⟨r, hr, ?_⟩
    rw [List.cons_append, stepsOfStream_cons, runSteps_add _ hrun]
    exact hrest

end Sys2Proof.Machine

/-! PROOFS. The store of the block (20_memory.md): entry words and what a lookup reads, the frame of a step over the
configuration, and the load of a catalog. -/

namespace Sys2Proof.Machine

/-! ## The lookup of an identifier (R41, R68) -/

theorem entryRecord_n (w : Word32) : (entryRecord w).n = w.extractLsb' 26 5 := rfl
theorem entryRecord_descr (w : Word32) : (entryRecord w).descr = w.extractLsb' 16 10 := rfl
theorem entryRecord_base (w : Word32) : (entryRecord w).base = w.extractLsb' 0 16 := rfl

/-- A lookup reads one entry word and nothing else of the ROM. -/
theorem catRead_congr {m m' : Memory} {id id' : DataId} (h : m.entryAt id = m'.entryAt id') :
    catRead m id = catRead m' id' := by
  rw [catRead, catRead, h]

theorem catRead_of_clear {m : Memory} {id : DataId} (h : (m.entryAt id).getLsbD 31 = false) :
    catRead m id = none := by
  rw [catRead, entryPresent_eq_bit, h, if_neg Bool.false_ne_true]

theorem catRead_of_set {m : Memory} {id : DataId} (h : (m.entryAt id).getLsbD 31 = true) :
    catRead m id = some (entryRecord (m.entryAt id)) := by
  rw [catRead, entryPresent_eq_bit, if_pos h]

theorem getLsbD_entryWord_31 (e : EntryRec) : (entryWord e).getLsbD 31 = true := by
  rw [← entryPresent_eq_bit, entryPresent_entryWord]

theorem catRead_writeEntry_entryWord {m : Memory} (id : DataId) (e : EntryRec) (h : m.wf = true) :
    catRead (m.writeEntry id (entryWord e)) id = some e := by
  have hw : (m.writeEntry id (entryWord e)).entryAt id = entryWord e := entryAt_writeEntry_same h
  have hbit : ((m.writeEntry id (entryWord e)).entryAt id).getLsbD 31 = true := by rw [hw, getLsbD_entryWord_31]
  rw [catRead_of_set hbit, hw, entryRecord_entryWord]

theorem catRead_writeEntry_unlisted {m : Memory} (id : DataId) (h : m.wf = true) :
    catRead (m.writeEntry id unlistedEntry) id = none := by
  have hw : (m.writeEntry id unlistedEntry).entryAt id = unlistedEntry := entryAt_writeEntry_same h
  exact catRead_of_clear (by rw [hw]; exact BitVec.getLsbD_zero)

theorem catRead_writeEntry_other {m : Memory} {id id' : DataId} (w : Word32) (h : id' ≠ id) :
    catRead (m.writeEntry id w) id' = catRead m id' :=
  catRead_congr (entryAt_writeEntry_other h)

/-- Settles O13: the bits of an entry word and of a read by the packing lemmas, the reads after a write by the rules of
the slot written and of the others. -/
theorem loadedEntryReadsBack : Obligations.LoadedEntryReadsBack := by
  unfold Obligations.LoadedEntryReadsBack
  refine ⟨fun e => ?_, fun m id => ⟨catRead_of_clear, catRead_of_set⟩, fun m id e h => ?_⟩
  · rw [← entryRecord_n, ← entryRecord_descr, ← entryRecord_base, entryRecord_entryWord]
    exact ⟨getLsbD_entryWord_31 e, rfl, rfl, rfl⟩
  · exact ⟨writeEntry_wf h, catRead_writeEntry_entryWord id e h, catRead_writeEntry_unlisted id h,
      fun _ hne => catRead_writeEntry_other _ hne⟩

/-! ## The frame of a step over the configuration (R20, R47) -/

/-- The acceptance of a frame writes the port, the transaction and the output only. -/
theorem acceptFrame_frame (s : State) :
    (acceptFrame s).rom = s.rom ∧ (acceptFrame s).params = s.params ∧ (acceptFrame s).boot = s.boot ∧
      (acceptFrame s).draws = s.draws := by
  rcases acceptFrame_cases s with ⟨_, he⟩ | ⟨rest, _, he⟩ | ⟨w, rest, _, _, he⟩ | ⟨w, rest, e, _, _, he⟩ <;> rw [he] <;>
    exact ⟨rfl, rfl, rfl, rfl⟩

/-- No step writes the ROM or a parameter: none of the four things it can do does. -/
theorem step_keeps_config {s s' : State} (h : step s = .next s') : s'.rom = s.rom ∧ s'.params = s.params := by
  rcases step_cases h with ⟨_, _, rfl⟩ | ⟨_, _, rfl⟩ | ⟨t, i, _, _, _, _, rfl⟩ | ⟨t, _, _, _, rfl⟩
  · exact ⟨rfl, rfl⟩
  · obtain ⟨hrom, hparams, -, -⟩ := acceptFrame_frame s
    exact ⟨hrom, hparams⟩
  · exact ⟨rfl, rfl⟩
  · exact ⟨finishTxn_rom s t, finishTxn_params s t⟩

/-- Settles O22: every slot is read from the ROM, which no step writes. -/
theorem stepWritesNoConfiguration : Obligations.StepWritesNoConfiguration := by
  unfold Obligations.StepWritesNoConfiguration
  intro s s' h
  obtain ⟨hrom, hparams⟩ := step_keeps_config h
  exact ⟨hrom, hparams, fun id => by rw [hrom], fun j => by rw [hrom]⟩

/-! ## The load of a catalog (R51, R233) -/

/-- A step before operation that goes on is the load check, passed. -/
theorem step_next_of_checkPending {s s' : State} (hb : s.boot = .checkPending) (h : step s = .next s') :
    loadCheck s.params s.rom = none ∧ s' = { s with boot := .inOperation } := by
  rcases step_cases h with ⟨_, hl, he⟩ | ⟨hb', _⟩ | ⟨_, _, hb', _⟩ | ⟨_, hb', _⟩
  · exact ⟨hl, he⟩
  all_goals exact nomatch hb.symm.trans hb'

/-- Settles O5: a load asks for a new load check, so the step after it is that check. -/
theorem loadedCatalogIsCheckedFirst : Obligations.LoadedCatalogIsCheckedFirst := by
  unfold Obligations.LoadedCatalogIsCheckedFirst
  intro m s s' h
  obtain ⟨hl, rfl⟩ := step_next_of_checkPending (load_boot s m) h
  exact ⟨hl, rfl, rfl, rfl, rfl, rfl⟩

end Sys2Proof.Machine

/-! PROOFS. The encodings (30_encoding.md R64-R70): the descriptor word and its two directions, the abstract descriptor, the
load check W1-W9 and its report. -/

namespace Sys2Proof

/-! ## Decoding the word of a descriptor (R65-R67) -/

section Word
variable (d : Desc)

@[simp] theorem kindField_word : kindField d.word = d.kind.code := by rw [Desc.word, kindField_packDesc]
@[simp] theorem selField_word : selField d.word = d.sel.code := by rw [Desc.word, selField_packDesc]
@[simp] theorem bitField_word : bitField d.word = d.bit.getD 0 := by rw [Desc.word, bitField_packDesc]
@[simp] theorem fvField_word : fvField d.word = fvOf d.filter := by rw [Desc.word, fvField_packDesc]
@[simp] theorem fmtField_word : fmtField d.word = fmtOf d.filter := by rw [Desc.word, fmtField_packDesc]
@[simp] theorem rsv0Field_word : rsv0Field d.word = 0#3 := by rw [Desc.word, rsv0Field_packDesc]; rfl
@[simp] theorem rsv1Field_word : rsv1Field d.word = 0#6 := by rw [Desc.word, rsv1Field_packDesc]; rfl

end Word

/-- W4 on the abstract descriptor: a kind other than FLAG has no bit index. -/
theorem Desc.bit_eq_none (d : Desc) (h : d.bitPaired = true) (hk : d.kind ≠ .flag) : d.bit = none := by
  rwa [Desc.bitPaired, beq_false_of_ne hk, beq_iff_eq, eq_comm, Option.isSome_eq_false_iff, Option.isNone_iff_eq_none] at h

/-- A filter with `FV = 0` has `FMT = 0` (W5). -/
theorem fmtOf_of_fvOf {f : Filter} (h : fvOf f = 0#1) : fmtOf f = 0#3 := by
  cases f with
  | none => rfl
  | some m => exact absurd h (by decide : (1 : BitVec 1) ≠ 0#1)

/-- Fields that satisfy W3 to W6 decode. -/
theorem checkFields_ok {k : Kind} {w : Word32} {i : Instr} (h4 : k ≠ .flag → bitField w = 0#3)
    (h5 : fvField w = 0#1 → fmtField w = 0#3) (h6 : rsv0Field w = 0#3 ∧ rsv1Field w = 0#6) :
    checkFields k w (some i) = .ok i := by
  simp only [checkFields]
  rw [if_neg fun h => h.2 (h4 h.1), if_neg fun h => h.2 (h5 h.1), if_neg fun h => h.elim (· h6.1) (· h6.2)]

/-- The word of a descriptor that denotes an instruction decodes to it. -/
theorem decode_word {d : Desc} {i : Instr} (h : d.toInstr = some i) : decode d.word = .ok i := by
  have hbit : d.bitPaired = true := toDesc_of_toInstr h ▸ toDesc_bitPaired i
  have hcheck : checkFields d.kind d.word (some i) = .ok i := by
    refine checkFields_ok (fun hk => ?_) (fun hf => ?_) ⟨rsv0Field_word d, rsv1Field_word d⟩
    · rw [bitField_word, d.bit_eq_none hbit hk]; rfl
    · rw [fmtField_word]; exact fmtOf_of_fvOf (fvField_word d ▸ hf)
  simpa [decode, wordDesc_word d hbit, h] using hcheck

theorem decode_encode (i : Instr) : decode (encode i) = .ok i := decode_word (toInstr_toDesc i)

/-- Settles O10: the word of an instruction is its descriptor's, whose fields denote the instruction and pass W3 to W6. -/
theorem decodeEncodeAgree : Obligations.DecodeEncodeAgree := by
  unfold Obligations.DecodeEncodeAgree
  exact decode_encode

/-! ## The word of a decoded instruction (R65, R70) -/

theorem fvField_of_ne_zero {w : Word32} (h : fvField w ≠ 0#1) : fvField w = 1#1 :=
  (BitVec.eq_zero_or_eq_one _).resolve_left h

theorem filterOf_of_clear {w : Word32} (h : fvField w = 0#1) : filterOf w = none := by
  rw [filterOf, h, if_neg (by decide)]

theorem filterOf_of_set {w : Word32} (h : fvField w ≠ 0#1) : filterOf w = some (fmtField w) := by
  rw [filterOf, if_pos (fvField_of_ne_zero h)]

theorem fvOf_filterOf (w : Word32) : fvOf (filterOf w) = fvField w := by
  by_cases h : fvField w = 0#1
  · rw [filterOf_of_clear h, h]; rfl
  · rw [filterOf_of_set h, fvField_of_ne_zero h]; rfl

theorem fmtOf_filterOf {w : Word32} (h5 : fvField w = 0#1 → fmtField w = 0#3) : fmtOf (filterOf w) = fmtField w := by
  by_cases h : fvField w = 0#1
  · rw [filterOf_of_clear h, h5 h]; rfl
  · rw [filterOf_of_set h]; rfl

theorem bitOf_getD {k : Kind} {w : Word32} (h4 : k ≠ .flag → bitField w = 0#3) : (bitOf k w).getD 0 = bitField w := by
  by_cases h : k = .flag
  · rw [bitOf, if_pos h]; rfl
  · rw [bitOf, if_neg h, h4 h]; rfl

/-- The descriptor of a word that satisfies W4 to W6 has that word. -/
theorem word_wordDesc {k : Kind} {s : Sel} {w : Word32} (hk : k.code = kindField w) (hs : s.code = selField w)
    (h4 : k ≠ .flag → bitField w = 0#3) (h5 : fvField w = 0#1 → fmtField w = 0#3)
    (h6 : rsv0Field w = 0#3 ∧ rsv1Field w = 0#6) : (wordDesc k s w).word = w := by
  obtain ⟨hr0, hr1⟩ := h6
  calc (wordDesc k s w).word
      = packDesc k.code s.code ((bitOf k w).getD 0) (fvOf (filterOf w)) (fmtOf (filterOf w)) 0#3 (nameField w) 0#6 := rfl
    _ = packDesc (kindField w) (selField w) (bitField w) (fvField w) (fmtField w) (rsv0Field w) (nameField w)
          (rsv1Field w) := by rw [hk, hs, bitOf_getD h4, fvOf_filterOf, fmtOf_filterOf h5, hr0, hr1]
    _ = w := packDesc_fields w

theorem encode_of_decode {w : Word32} {i : Instr} (h : decode w = .ok i) : encode i = w := by
  obtain ⟨k, s, hk, hs, hi, h4, h5, h6⟩ := decode_ok h
  rw [encode, toDesc_of_toInstr hi, word_wordDesc hk hs h4 h5 h6]

/-- Settles O11: a legal word is the packing of its fields, each of which its instruction has. -/
theorem decodedWordIsItsEncoding : Obligations.DecodedWordIsItsEncoding := by
  unfold Obligations.DecodedWordIsItsEncoding
  exact fun _ _ => encode_of_decode

theorem decode_eq_ok_iff {w : Word32} {i : Instr} : decode w = .ok i ↔ encode i = w :=
  ⟨encode_of_decode, fun h => h ▸ decode_encode i⟩

/-- Settles O12: each legal word is the encoding of its instruction; each other is decoded to the check it fails. -/
theorem listedWordsDecode : Obligations.ListedWordsDecode := by
  unfold Obligations.ListedWordsDecode
  simp only [decode_eq_ok_iff]
  decide

/-! ## The abstract descriptor (R64, W3, W4) -/

/-- The byte kinds of the spec's table (R66). -/
theorem isByte_iff_mem (k : Kind) : k.isByte = true ↔ k ∈ [Kind.flag, .u8, .s8] := by cases k <;> decide

theorem sel_ne_full_iff (s : Sel) : s ≠ .full ↔ s = .high ∨ s = .low := by cases s <;> decide

/-- W3: a byte kind has a half, a word kind the whole payload. -/
theorem widthPaired_iff (k : Kind) (s : Sel) : widthPaired k s = true ↔
    (k.isByte = true → s = .high ∨ s = .low) ∧ (k.isByte = false → s = .full) := by
  rw [← sel_ne_full_iff, widthPaired]
  cases k.isByte <;> simp

/-- W4: a bit index is present exactly for FLAG. -/
theorem bitPaired_iff (d : Desc) : d.bitPaired = true ↔ (d.kind = .flag ↔ ∃ b, d.bit = some b) := by
  rw [Desc.bitPaired, beq_iff_eq, Bool.eq_iff_iff, beq_iff_eq, Option.isSome_iff_exists]

theorem toInstr_eq_some_iff (d : Desc) (i : Instr) : d.toInstr = some i ↔ i.toDesc = d :=
  ⟨toDesc_of_toInstr, fun h => h ▸ toInstr_toDesc i⟩

/-- W3 and W4 are all that a descriptor needs to denote an instruction. -/
theorem exists_toInstr_iff (d : Desc) :
    (∃ i, d.toInstr = some i) ↔ (widthPaired d.kind d.sel = true ∧ d.bitPaired = true) := by
  constructor
  · rintro ⟨i, h⟩
    obtain rfl := toDesc_of_toInstr h
    exact ⟨Laws.AbstractForm.widthPaired_toDesc i, toDesc_bitPaired i⟩
  · rintro ⟨hw, hb⟩
    obtain ⟨hbyte, hword⟩ := (widthPaired_iff _ _).mp hw
    have hflag := (bitPaired_iff d).mp hb
    have hnone : d.kind ≠ .flag → d.bit = none := d.bit_eq_none hb
    obtain ⟨f, s, k, b, n⟩ := d
    cases k with
    | flag =>
      obtain ⟨b, rfl⟩ := hflag.mp rfl
      obtain rfl | rfl := hbyte rfl <;> exact ⟨_, rfl⟩
    | u8 | s8 =>
      obtain rfl := hnone nofun
      obtain rfl | rfl := hbyte rfl <;> exact ⟨_, rfl⟩
    | u16 | s16 | f88 | daytime | date | year | vendorSvc =>
      obtain rfl := hnone nofun
      obtain rfl := hword rfl
      exact ⟨_, rfl⟩

/-- Settles O9: the two checks are W3 and W4 as the spec words them, and an instruction is denoted by its own descriptor
only. -/
theorem abstractDescriptorDenotes : Obligations.AbstractDescriptorDenotes := by
  unfold Obligations.AbstractDescriptorDenotes
  intro d
  have hnot : d.kind.isByte = false ↔ d.kind ∉ [Kind.flag, .u8, .s8] := by
    rw [← isByte_iff_mem, Bool.not_eq_true]
  refine ⟨?_, exists_toInstr_iff d, toInstr_eq_some_iff d⟩
  rw [exists_toInstr_iff, widthPaired_iff, bitPaired_iff, isByte_iff_mem, hnot, and_assoc]

end Sys2Proof

namespace Sys2Proof.Machine

/-! ## The check of one word, field by field (W1-W7) -/

theorem code_toNat_le (k : Kind) : k.code.toNat ≤ 9 := by cases k <;> decide

theorem isByte_iff_code (k : Kind) : k.isByte = true ↔ k.code.toNat ≤ 2 := by cases k <;> decide

theorem code_eq_zero_iff (k : Kind) : k.code = 0#4 ↔ k = .flag := by cases k <;> decide

theorem code_ne_three (s : Sel) : s.code ≠ 3#2 := by cases s <;> decide

theorem code_eq_full_iff (s : Sel) : s.code = 0#2 ↔ s = .full := by cases s <;> decide

theorem code_eq_half_iff (s : Sel) : (s.code = 1#2 ∨ s.code = 2#2) ↔ (s = .high ∨ s = .low) := by cases s <;> decide

/-- W3 on the codes of a kind and a selector. -/
theorem widthPaired_iff_codes (k : Kind) (s : Sel) : widthPaired k s = true ↔
    (k.code.toNat ≤ 2 → s.code = 1#2 ∨ s.code = 2#2) ∧ (2 < k.code.toNat → s.code = 0#2) := by
  rw [widthPaired_iff, isByte_iff_code, ← Bool.not_eq_true, isByte_iff_code, not_le, code_eq_half_iff, code_eq_full_iff]

theorem code_of_kindOfCode_none {c : BitVec 4} (h : kindOfCode c = none) : 9 < c.toNat := by
  revert h; revert c; decide

theorem code_of_selOfCode_none {c : BitVec 2} (h : selOfCode c = none) : c = 3#2 := by
  revert h; revert c; decide

/-- The bit index a word gives is present exactly for FLAG, so W4 holds of its descriptor. -/
theorem wordDesc_bitPaired (k : Kind) (s : Sel) (w : Word32) : (wordDesc k s w).bitPaired = true := by
  rw [Desc.bitPaired, wordDesc, bitOf]
  by_cases h : k = .flag <;> simp [h]

/-- A word that denotes no instruction fails W3: its descriptor satisfies W4. -/
theorem widthPaired_of_toInstr_none {k : Kind} {s : Sel} {w : Word32} (h : (wordDesc k s w).toInstr = none) :
    ¬ widthPaired k s = true := by
  intro hw
  obtain ⟨i, hi⟩ := (exists_toInstr_iff (wordDesc k s w)).mpr ⟨hw, wordDesc_bitPaired k s w⟩
  exact nomatch h.symm.trans hi

/-- A check of W3 to W6 that the decoder reports fails. -/
theorem checkFields_error {n : Nat} {k : Kind} {s : Sel} {w : Word32} {c : Check} (hk : k.code = kindField w)
    (hs : s.code = selField w) (h : checkFields k w (wordDesc k s w).toInstr = .error c) : wordFails n w c := by
  unfold checkFields at h
  split at h
  · rename_i hnone
    cases h
    have hw := widthPaired_of_toInstr_none hnone
    rw [widthPaired_iff_codes, hk, hs] at hw
    simp only [wordFails]
    tauto
  · split_ifs at h with h4 h5 h6
    · cases h
      obtain ⟨hflag, hbit⟩ := h4
      exact ⟨hk ▸ fun h0 => hflag ((code_eq_zero_iff k).mp h0), hbit⟩
    · cases h; exact h5
    · cases h; exact h6

/-- A check the decoder reports fails, field by field. -/
theorem decode_error {n : Nat} {w : Word32} {c : Check} (h : decode w = .error c) : wordFails n w c := by
  unfold decode at h
  split at h
  · rename_i hk
    cases h
    exact code_of_kindOfCode_none hk
  · rename_i hs
    cases h
    exact code_of_selOfCode_none hs
  · rename_i hk hs
    exact checkFields_error (code_of_kindOfCode hk) (code_of_selOfCode hs) h

/-- The name and the filter of a decoded instruction are those of its word. -/
theorem operands_of_decode {w : Word32} {i : Instr} (h : decode w = .ok i) :
    i.name = nameField w ∧ i.filter = filterOf w := by
  obtain ⟨k, s, _, _, hi, _⟩ := decode_ok h
  rw [Instr.name, Instr.filter, toDesc_of_toInstr hi]
  exact ⟨rfl, rfl⟩

/-- A word that decodes to an instruction with a name in the table passes W1 to W7. -/
theorem wordPasses_of_decode {n : Nat} {w : Word32} {i : Instr} (h : decode w = .ok i) (hn : i.name.toNat < n) :
    wordPasses n w := by
  rw [(operands_of_decode h).1] at hn
  obtain ⟨k, s, hk, hs, hi, h4, h5, hr0, hr1⟩ := decode_ok h
  obtain ⟨hbyte, hword⟩ := (widthPaired_iff_codes k s).mp ((exists_toInstr_iff _).mp ⟨i, hi⟩).1
  rw [hk, hs] at hbyte hword
  exact ⟨hk ▸ code_toNat_le k, hs ▸ code_ne_three s, hbyte, hword,
    fun hne => h4 fun hf => hne (hk ▸ (code_eq_zero_iff k).mpr hf), h5, hr0, hr1, hn⟩

/-- A word that fails one of W1 to W7 does not pass them all. -/
theorem not_wordPasses_of_wordFails {n : Nat} {w : Word32} {c : Check} (h : wordFails n w c) : ¬ wordPasses n w := by
  rintro ⟨p1, p2, p3h, p3w, p4, p5, p6a, p6b, p7⟩
  cases c with
  | w1 => exact absurd p1 (not_le.mpr h)
  | w2 => exact p2 h
  | w3 =>
    obtain ⟨hk, h1, h2⟩ | ⟨hk, h0⟩ := h
    · exact (p3h hk).elim h1 h2
    · exact h0 (p3w hk)
  | w4 => exact h.2 (p4 h.1)
  | w5 => exact h.2 (p5 h.1)
  | w6 => exact h.elim (· p6a) (· p6b)
  | w7 => exact absurd p7 (not_lt.mpr h)
  | w8 | w9 => exact h

/-- A check the word check reports fails, field by field. -/
theorem wordFails_of_checkDescWord {n : Nat} {w : Word32} {c : Check} (h : checkDescWord n w = some c) :
    wordFails n w c := by
  unfold checkDescWord at h
  split at h
  · rename_i hd
    cases h
    exact decode_error hd
  · rename_i i hi
    split_ifs at h with hn
    cases h
    rw [(operands_of_decode hi).1] at hn
    exact not_lt.mp hn

theorem checkDescWord_none_iff (n : Nat) (w : Word32) : checkDescWord n w = none ↔ wordPasses n w := by
  constructor
  · intro h
    obtain ⟨i, hi, hn⟩ := checkDescWord_none h
    exact wordPasses_of_decode hi hn
  · intro hp
    by_contra hne
    obtain ⟨c, hc⟩ := Option.ne_none_iff_exists'.mp hne
    exact not_wordPasses_of_wordFails (wordFails_of_checkDescWord hc) hp

/-- Settles O6: a word that decodes has legal fields, and a check the decoder reports is one the fields fail. -/
theorem wordCheckIsFieldwise : Obligations.WordCheckIsFieldwise := by
  unfold Obligations.WordCheckIsFieldwise
  exact checkDescWord_none_iff

/-! ## Collisions (W9) -/

/-- Two filters of words overlap when one is absent or both name the same message type. -/
theorem filtersOverlap_filterOf (w w' : Word32) : filtersOverlap (filterOf w) (filterOf w') = true ↔
    (fvField w = 0#1 ∨ fvField w' = 0#1 ∨ fmtField w = fmtField w') := by
  by_cases h : fvField w = 0#1
  · simp [filterOf_of_clear h, filtersOverlap, h]
  · by_cases h' : fvField w' = 0#1
    · simp [filterOf_of_clear h', filterOf_of_set h, filtersOverlap, h']
    · simp [filterOf_of_set h, filterOf_of_set h', filtersOverlap, h, h']

/-- W9 on two decoded words is W9 on their fields. -/
theorem collide_iff_wordsCollide {w w' : Word32} {i i' : Instr} (h : decode w = .ok i) (h' : decode w' = .ok i') :
    collide i i' = true ↔ wordsCollide w w' := by
  obtain ⟨hname, hfilter⟩ := operands_of_decode h
  obtain ⟨hname', hfilter'⟩ := operands_of_decode h'
  rw [collide, hname, hfilter, hname', hfilter', Bool.and_eq_true, beq_iff_eq, filtersOverlap_filterOf, wordsCollide]

theorem wordsCollide_comm (w w' : Word32) : wordsCollide w w' ↔ wordsCollide w' w := by
  simp only [wordsCollide, eq_comm (a := nameField w), eq_comm (a := fmtField w), or_left_comm]

/-- A reported collision: the descriptor at that index, with one before it. -/
theorem firstCollision_some {l : List Instr} : ∀ {k r : Nat} {seen : List Instr}, firstCollision k seen l = some r →
    ∃ d i, r = k + d ∧ l[d]? = some i ∧ ∃ a, (a ∈ seen ∨ ∃ j < d, l[j]? = some a) ∧ collide i a = true := by
  induction l with
  | nil => intro k r seen h; cases h
  | cons x rest ih =>
    intro k r seen h
    unfold firstCollision at h
    split at h
    · rename_i hany
      cases h
      obtain ⟨a, ha, hc⟩ := List.any_eq_true.mp hany
      exact ⟨0, x, rfl, rfl, a, .inl ha, hc⟩
    · obtain ⟨d, i, rfl, hi, a, ha, hc⟩ := ih h
      refine ⟨d + 1, i, by omega, hi, a, ?_, hc⟩
      obtain hmem | ⟨j, hj, hja⟩ := ha
      · obtain rfl | hmem := List.mem_cons.mp hmem
        · exact .inr ⟨0, d.succ_pos, rfl⟩
        · exact .inl hmem
      · exact .inr ⟨j + 1, by omega, hja⟩

/-- Where no collision is reported, no descriptor collides with one before it. -/
theorem firstCollision_none {l : List Instr} : ∀ {k : Nat} {seen : List Instr}, firstCollision k seen l = none →
    ∀ (d : Nat) (i a : Instr), l[d]? = some i → (a ∈ seen ∨ ∃ j < d, l[j]? = some a) → ¬ collide i a = true := by
  induction l with
  | nil => intro k seen _ d i a hi; cases hi
  | cons x rest ih =>
    intro k seen h d i a hi ha
    unfold firstCollision at h
    split_ifs at h with hany
    cases d with
    | zero =>
      cases hi
      obtain hmem | ⟨j, hj, _⟩ := ha
      · exact fun hc => hany (List.any_eq_true.mpr ⟨a, hmem, hc⟩)
      · exact absurd hj (Nat.not_lt_zero j)
    | succ d =>
      refine ih h d i a hi ?_
      obtain hmem | ⟨j, hj, hja⟩ := ha
      · exact .inl (List.mem_cons_of_mem _ hmem)
      · cases j with
        | zero => cases hja; exact .inl List.mem_cons_self
        | succ j => exact .inr ⟨j, by omega, hja⟩

/-! ## The check of one identifier, and what its report says (R69) -/

/-- A reported word: it stands at that index and fails the check. -/
theorem firstBadWord_some {n : Nat} {l : List Word32} : ∀ {k r : Nat} {c : Check}, firstBadWord n k l = some (c, r) →
    ∃ d w, r = k + d ∧ l[d]? = some w ∧ checkDescWord n w = some c := by
  induction l with
  | nil => intro k r c h; cases h
  | cons x rest ih =>
    intro k r c h
    unfold firstBadWord at h
    split at h
    · rename_i c' hc
      cases h
      exact ⟨0, x, rfl, rfl, hc⟩
    · obtain ⟨d, w, rfl, hw, hc⟩ := ih h
      exact ⟨d + 1, w, by omega, hw, hc⟩

/-- The instruction at an index of a decoded list is the decoding of the word there. -/
theorem word_of_decodeAll {l : List Word32} {is : List Instr} (h : decodeAll l = some is) {d : Nat} {i : Instr}
    (hi : is[d]? = some i) : ∃ w, l[d]? = some w ∧ decode w = .ok i := by
  obtain ⟨hlen, hget⟩ := decodeAll_get h
  obtain ⟨hd, _⟩ := List.getElem?_eq_some_iff.mp hi
  have hw : l[d]? = some (l[d]'(hlen ▸ hd)) := List.getElem?_eq_getElem _
  obtain ⟨i', hi', hdec⟩ := hget d _ hw
  obtain rfl : i = i' := Option.some.inj (hi.symm.trans hi')
  exact ⟨_, hw, hdec⟩

/-- The words of an entry are the words of `DESC` from its `BASE`, `N` of them. -/
theorem entryWords_eq_some_iff (m : Memory) (e : EntryRec) (k : Nat) (w : Word32) :
    (entryWords m e)[k]? = some w ↔ k < e.n.toNat ∧ m.descAt (e.base.toNat + k) = some w := by
  by_cases hk : k < e.n.toNat
  · rw [entryWords_get hk, and_iff_right hk]
  · have hlen : (entryWords m e).length ≤ k := (List.length_take_le _ _).trans (not_lt.mp hk)
    simp [List.getElem?_eq_none hlen, hk]

theorem entryInBounds_iff (c : Params) (m : Memory) (e : EntryRec) : entryInBounds c m e = true ↔
    e.n.toNat ≤ c.maxDesc ∧ e.base.toNat + e.n.toNat ≤ m.desc.length ∧ e.descr.toNat < m.descr.length := by
  simp only [entryInBounds, Bool.and_eq_true, decide_eq_true_eq, and_assoc]

theorem catRead_eq_none_iff (m : Memory) (id : DataId) : catRead m id = none ↔ entryPresent (m.entryAt id) = false := by
  rw [catRead, ite_eq_right_iff, ← Bool.not_eq_true]
  simp only [reduceCtorEq, imp_false]

theorem catRead_eq_some_iff (m : Memory) (id : DataId) (e : EntryRec) :
    catRead m id = some e ↔ entryPresent (m.entryAt id) = true ∧ entryRecord (m.entryAt id) = e := by
  rw [catRead, Option.ite_none_right_eq_some, Option.some.injEq]

/-- What a truthful report says: W8 fails on the entry word, or the descriptor named fails the check named. -/
def ReportHolds (c : Params) (m : Memory) (id : DataId) (e : LoadError) : Prop :=
  (e.desc = none ∧ e.check = .w8 ∧ entryFails c m id) ∨
  ∃ k entry w, e.desc = some k ∧ catRead m id = some entry ∧ k < entry.n.toNat ∧
    m.descAt (entry.base.toNat + k) = some w ∧
    (wordFails m.maxNames w e.check ∨
      (e.check = .w9 ∧ c.rejectCollision = true ∧
        ∃ j w', j < k ∧ m.descAt (entry.base.toNat + j) = some w' ∧ wordsCollide w' w))

/-- Everything the check of one slot can report. -/
theorem checkSlot_some {c : Params} {m : Memory} {a : Nat} {w : Word32} {e : LoadError}
    (h : checkSlot c m (a, w) = some e) :
    (entryPresent w = false ∧ w ≠ 0#32 ∧ e = ⟨.w8, a, none⟩) ∨
    (entryPresent w = true ∧ ¬ entryInBounds c m (entryRecord w) = true ∧ e = ⟨.w8, a, none⟩) ∨
    (entryPresent w = true ∧ ∃ x k, firstBadWord m.maxNames 0 (entryWords m (entryRecord w)) = some (x, k) ∧
      e = ⟨x, a, some k⟩) ∨
    (entryPresent w = true ∧ c.rejectCollision = true ∧ ∃ is k, decodeAll (entryWords m (entryRecord w)) = some is ∧
      firstCollision 0 [] is = some k ∧ e = ⟨.w9, a, some k⟩) := by
  unfold checkSlot at h
  by_cases hp : entryPresent w = true
  · by_cases hb : entryInBounds c m (entryRecord w) = true
    · simp only [hp, hb, Bool.not_true, Bool.false_eq_true, if_false] at h
      split at h
      · rename_i x k hbad
        exact .inr (.inr (.inl ⟨hp, x, k, hbad, (Option.some.inj h).symm⟩))
      · split_ifs at h with hr
        split at h
        · cases h
        · rename_i is his
          obtain ⟨k, hk, he⟩ := Option.map_eq_some_iff.mp h
          exact .inr (.inr (.inr ⟨hp, hr, is, k, his, hk, he.symm⟩))
    · rw [Bool.not_eq_true] at hb
      simp only [hp, hb, Bool.not_true, Bool.not_false, Bool.false_eq_true, if_false, if_true] at h
      exact .inr (.inl ⟨hp, by simp [hb], (Option.some.inj h).symm⟩)
  · rw [Bool.not_eq_true] at hp
    simp only [hp, Bool.not_false, if_true] at h
    split_ifs at h with h0
    exact .inl ⟨hp, h0, (Option.some.inj h).symm⟩

theorem entryFails_of_absent {c : Params} {m : Memory} {id : DataId} (h : catRead m id = none) :
    entryFails c m id ↔ m.entryAt id ≠ 0#32 := by
  rw [entryFails, h]

theorem entryFails_of_present {c : Params} {m : Memory} {id : DataId} {e : EntryRec} (h : catRead m id = some e) :
    entryFails c m id ↔ ¬ entryInBounds c m e = true := by
  rw [entryFails, h, entryInBounds_iff, not_and_or, not_and_or, not_le, not_le, not_lt]

/-- A report of the check of an identifier's slot names that identifier and is truthful. -/
theorem reportHolds_of_checkSlot {c : Params} {m : Memory} {id : DataId} {e : LoadError}
    (h : checkSlot c m (id.toNat, m.entryAt id) = some e) : id.toNat = e.ident ∧ ReportHolds c m id e := by
  obtain ⟨hp, hne, rfl⟩ | ⟨hp, hb, rfl⟩ | ⟨hp, x, k, hbad, rfl⟩ | ⟨hp, hr, is, k, his, hk, rfl⟩ := checkSlot_some h
  · exact ⟨rfl, .inl ⟨rfl, rfl, (entryFails_of_absent ((catRead_eq_none_iff m id).mpr hp)).mpr hne⟩⟩
  · exact ⟨rfl, .inl ⟨rfl, rfl, (entryFails_of_present ((catRead_eq_some_iff m id _).mpr ⟨hp, rfl⟩)).mpr hb⟩⟩
  · obtain ⟨d, w, rfl, hw, hc⟩ := firstBadWord_some hbad
    obtain ⟨hd, hat⟩ := (entryWords_eq_some_iff m _ d w).mp hw
    rw [Nat.zero_add]
    exact ⟨rfl, .inr ⟨d, _, w, rfl, (catRead_eq_some_iff m id _).mpr ⟨hp, rfl⟩, hd, hat,
      .inl (wordFails_of_checkDescWord hc)⟩⟩
  · obtain ⟨d, i, rfl, hi, a, ha, hc⟩ := firstCollision_some hk
    obtain ⟨j, hj, hja⟩ := ha.resolve_left List.not_mem_nil
    obtain ⟨w, hw, hdec⟩ := word_of_decodeAll his hi
    obtain ⟨w', hw', hdec'⟩ := word_of_decodeAll his hja
    obtain ⟨hd, hat⟩ := (entryWords_eq_some_iff m _ d w).mp hw
    obtain ⟨_, hat'⟩ := (entryWords_eq_some_iff m _ j w').mp hw'
    have hcollide : wordsCollide w' w := (wordsCollide_comm w w').mp ((collide_iff_wordsCollide hdec hdec').mp hc)
    rw [Nat.zero_add]
    exact ⟨rfl, .inr ⟨d, _, w, rfl, (catRead_eq_some_iff m id _).mpr ⟨hp, rfl⟩, hd, hat,
      .inr ⟨rfl, hr, j, w', hj, hat', hcollide⟩⟩⟩

theorem identPasses_of_absent {c : Params} {m : Memory} {id : DataId} (h : catRead m id = none) :
    identPasses c m id ↔ m.entryAt id = 0#32 := by
  rw [identPasses, h]

theorem identPasses_of_present {c : Params} {m : Memory} {id : DataId} {e : EntryRec} (h : catRead m id = some e) :
    identPasses c m id ↔ entryInBounds c m e = true ∧
      (∀ k, k < e.n.toNat → ∃ w, m.descAt (e.base.toNat + k) = some w ∧ wordPasses m.maxNames w) ∧
      (c.rejectCollision = true → ∀ j k w w', j < k → k < e.n.toNat → m.descAt (e.base.toNat + j) = some w →
        m.descAt (e.base.toNat + k) = some w' → ¬ wordsCollide w w') := by
  rw [identPasses, h, entryInBounds_iff, and_assoc, and_assoc]

/-- An entry word that fails W8 is not one that passes W1 to W9. -/
theorem not_identPasses_of_entryFails {c : Params} {m : Memory} {id : DataId} (h : entryFails c m id) :
    ¬ identPasses c m id := by
  cases hc : catRead m id with
  | none =>
    rw [identPasses_of_absent hc]
    exact (entryFails_of_absent hc).mp h
  | some e =>
    rw [identPasses_of_present hc]
    exact fun hp => (entryFails_of_present hc).mp h hp.1

/-- A truthful report is of an identifier that fails. -/
theorem not_identPasses_of_reportHolds {c : Params} {m : Memory} {id : DataId} {e : LoadError}
    (h : ReportHolds c m id e) : ¬ identPasses c m id := by
  obtain ⟨_, _, hf⟩ | ⟨k, entry, w, _, hc, hk, hw, hfail⟩ := h
  · exact not_identPasses_of_entryFails hf
  · rw [identPasses_of_present hc]
    rintro ⟨-, hwords, hcoll⟩
    obtain hf | ⟨_, hr, j, w', hj, hw', hcw⟩ := hfail
    · obtain ⟨x, hx, hpass⟩ := hwords k hk
      obtain rfl : w = x := Option.some.inj (hw.symm.trans hx)
      exact not_wordPasses_of_wordFails hf hpass
    · exact hcoll hr j k w' w hj hk hw' hw hcw

/-- Under `REJECT_NAME_COLLISION` the check of a present slot passes only where no descriptor collides with an earlier one. -/
theorem checkSlot_none_collision {c : Params} {m : Memory} {a : Nat} {w : Word32} {is : List Instr}
    (h : checkSlot c m (a, w) = none) (hp : entryPresent w = true) (hr : c.rejectCollision = true)
    (his : decodeAll (entryWords m (entryRecord w)) = some is) : firstCollision 0 [] is = none := by
  obtain ⟨hb, hwords⟩ := checkSlot_none h hp
  have hbad : firstBadWord m.maxNames 0 (entryWords m (entryRecord w)) = none := firstBadWord_none.mpr hwords
  simpa [checkSlot, hp, hb, hbad, hr, his] using h

/-- An identifier whose slot passes the model's check passes W1 to W9. -/
theorem identPasses_of_checkSlot {c : Params} {m : Memory} {id : DataId}
    (h : checkSlot c m (id.toNat, m.entryAt id) = none) : identPasses c m id := by
  cases hc : catRead m id with
  | none =>
    rw [identPasses_of_absent hc]
    have hp := (catRead_eq_none_iff m id).mp hc
    by_contra hne
    simp [checkSlot, hp, hne] at h
  | some e =>
    obtain ⟨hp, rfl⟩ := (catRead_eq_some_iff m id e).mp hc
    obtain ⟨hb, hwords⟩ := checkSlot_none h hp
    rw [identPasses_of_present hc]
    refine ⟨hb, fun k hk => ?_, fun hr j k w w' hj hk hw hw' => ?_⟩
    · have hlt : k < (entryWords m (entryRecord (m.entryAt id))).length := by rwa [entryWords_length hb]
      obtain ⟨_, hat⟩ := (entryWords_eq_some_iff m _ k _).mp (List.getElem?_eq_getElem hlt)
      exact ⟨_, hat, (checkDescWord_none_iff _ _).mp (hwords _ (List.getElem_mem hlt))⟩
    · obtain ⟨is, his, _⟩ := decodeAll_isSome hwords
      obtain ⟨_, hget⟩ := decodeAll_get his
      obtain ⟨i, hi, hdec⟩ := hget j w ((entryWords_eq_some_iff m _ j w).mpr ⟨by omega, hw⟩)
      obtain ⟨i', hi', hdec'⟩ := hget k w' ((entryWords_eq_some_iff m _ k w').mpr ⟨hk, hw'⟩)
      have hnone := firstCollision_none (checkSlot_none_collision h hp hr his) k i' i hi' (.inr ⟨j, hj, hi⟩)
      exact fun hcw => hnone ((collide_iff_wordsCollide hdec' hdec).mpr ((wordsCollide_comm w w').mp hcw))

/-! ## The load check (R69, R203) -/

theorem checkSlot_unlisted (c : Params) (m : Memory) (a : Nat) : checkSlot c m (a, unlistedEntry) = none := by
  have hp : entryPresent unlistedEntry = false := by decide
  rw [checkSlot, hp]
  rfl

/-- An unlisted identifier reads 0 and passes, so an accepted catalog's every identifier passes the check of its slot. -/
theorem checkSlot_of_loadCheck {c : Params} {m : Memory} (h : loadCheck c m = none) (id : DataId) :
    checkSlot c m (id.toNat, m.entryAt id) = none := by
  by_cases h0 : m.entryAt id = unlistedEntry
  · rw [h0, checkSlot_unlisted]
  · exact loadCheck_slot h (mem_of_readSlot h0)

/-- A refusal of a canonical ROM is the report of one identifier's slot, and truthful. -/
theorem reportHolds_of_loadCheck {c : Params} {m : Memory} {e : LoadError} (hwf : m.wf = true)
    (h : loadCheck c m = some e) : ∃ id : DataId, id.toNat = e.ident ∧ ReportHolds c m id e := by
  obtain ⟨⟨a, w⟩, hmem, hslot⟩ := List.exists_of_findSome?_eq_some h
  obtain ⟨hread, -, ha⟩ := readSlot_of_mem hwf hmem
  have hid : (BitVec.ofNat 8 a).toNat = a := by rw [BitVec.toNat_ofNat, Nat.mod_eq_of_lt ha]
  have hat : m.entryAt (BitVec.ofNat 8 a) = w := by rw [Memory.entryAt, hid, hread]
  exact ⟨_, reportHolds_of_checkSlot (by rwa [hid, hat])⟩

/-- Settles O7: an accepted catalog's every slot passes, and a refused one's report is of an identifier that fails. -/
theorem loadCheckAcceptsExactly : Obligations.LoadCheckAcceptsExactly := by
  unfold Obligations.LoadCheckAcceptsExactly
  intro c m hwf
  refine ⟨fun h id => identPasses_of_checkSlot (checkSlot_of_loadCheck h id), fun hall => ?_⟩
  by_contra hne
  obtain ⟨e, he⟩ := Option.ne_none_iff_exists'.mp hne
  obtain ⟨id, _, hrep⟩ := reportHolds_of_loadCheck hwf he
  exact not_identPasses_of_reportHolds hrep (hall id)

/-- Settles O8: the refusal is the truthful report of one slot. -/
theorem refusalNamesFailingCheck : Obligations.RefusalNamesFailingCheck := by
  unfold Obligations.RefusalNamesFailingCheck
  intro c m e hwf h
  obtain ⟨id, hid, hrep⟩ := reportHolds_of_loadCheck hwf h
  refine ⟨id, hid, not_identPasses_of_reportHolds hrep, ?_⟩
  obtain ⟨hnone, hcheck, hf⟩ | ⟨k, entry, w, hsome, hentry, hk, hw, hfail⟩ := hrep
  · exact ⟨fun _ => ⟨hcheck, hf⟩, fun k hk => nomatch hnone.symm.trans hk⟩
  · refine ⟨fun hn => (nomatch hsome.symm.trans hn), fun k' hk' => ?_⟩
    obtain rfl : k = k' := Option.some.inj (hsome.symm.trans hk')
    exact ⟨entry, w, hentry, hk, hw, hfail⟩

end Sys2Proof.Machine

/-! PROOFS. The ROM of a catalog text (30_encoding.md R73) and the header bits no result depends on (R61). -/

namespace Sys2Proof.Machine

/-! ## The layout of an assembled text (R73) -/

/-- Interning name by name lists the names in order of first appearance. -/
theorem foldl_intern (l : List String) : l.foldl intern [] = l.reverse.dedup.reverse := by
  induction l using List.reverseRecOn with
  | nil => rfl
  | append_singleton l s ih =>
    have hmem : s ∈ l.reverse.dedup.reverse ↔ s ∈ l.reverse := by rw [List.mem_reverse, List.mem_dedup]
    rw [List.foldl_append, ih, List.foldl_cons, List.foldl_nil, intern, List.reverse_append, List.reverse_singleton,
      List.singleton_append]
    by_cases h : s ∈ l.reverse
    · rw [if_pos (hmem.mpr h), List.dedup_cons_of_mem h]
    · rw [if_neg (mt hmem.mp h), List.dedup_cons_of_notMem h, List.reverse_cons]

theorem internAll_eq (es : List EntryText) :
    internAll es = (((es.flatMap EntryText.descs).map DescLine.pname).reverse.dedup).reverse := foldl_intern _

/-- The entry record R73 gives the `j`-th entry, with `base` lines before it. -/
def placedRecord (j base : Nat) (e : EntryText) : EntryRec :=
  ⟨BitVec.ofNat 10 j, BitVec.ofNat 16 base, BitVec.ofNat 5 e.descs.length⟩

theorem placeEntries_cons (j base : Nat) (e : EntryText) (rest : List EntryText) (m : Memory) :
    placeEntries j base (e :: rest) m = placeEntries (j + 1) (base + e.descs.length) rest
      (m.writeEntry (BitVec.ofNat 8 e.ident) (entryWord (placedRecord j base e))) := rfl

/-- Placing the entries leaves the other tables of the ROM. -/
theorem placeEntries_tables (es : List EntryText) : ∀ (j base : Nat) (m : Memory),
    (placeEntries j base es m).name = m.name ∧ (placeEntries j base es m).descr = m.descr ∧
      (placeEntries j base es m).desc = m.desc := by
  induction es with
  | nil => exact fun _ _ _ => ⟨rfl, rfl, rfl⟩
  | cons e rest ih => exact fun j base m => ih (j + 1) (base + e.descs.length) (m.writeEntry _ _)

theorem placeEntries_wf (es : List EntryText) : ∀ (j base : Nat) {m : Memory}, m.wf = true →
    (placeEntries j base es m).wf = true := by
  induction es with
  | nil => exact fun _ _ _ h => h
  | cons e rest ih => exact fun j base _ h => ih (j + 1) (base + e.descs.length) (writeEntry_wf h)

/-- An identifier that no entry has reads as before. -/
theorem entryAt_placeEntries_other {id : DataId} (es : List EntryText) : ∀ (j base : Nat) (m : Memory),
    (∀ e ∈ es, BitVec.ofNat 8 e.ident ≠ id) → (placeEntries j base es m).entryAt id = m.entryAt id := by
  induction es with
  | nil => exact fun _ _ _ _ => rfl
  | cons e rest ih =>
    intro j base m h
    obtain ⟨he, hrest⟩ := List.forall_mem_cons.mp h
    rw [placeEntries_cons, ih _ _ _ hrest, entryAt_writeEntry_other (Ne.symm he)]

/-- The identifier of an entry reads as its record, where no two entries have one identifier. -/
theorem catRead_placeEntries (es : List EntryText) : ∀ (j base : Nat) {m : Memory}, m.wf = true →
    (es.map fun e => BitVec.ofNat 8 e.ident).Nodup → ∀ (i : Nat) (e : EntryText), es[i]? = some e →
    catRead (placeEntries j base es m) (BitVec.ofNat 8 e.ident) =
      some (placedRecord (j + i) (base + ((es.take i).flatMap EntryText.descs).length) e) := by
  induction es with
  | nil => intro j base m _ _ i e hi; cases hi
  | cons x rest ih =>
    intro j base m hwf hnodup i e hi
    rw [List.map_cons, List.nodup_cons] at hnodup
    obtain ⟨hnot, hnodup⟩ := hnodup
    rw [placeEntries_cons]
    cases i with
    | zero =>
      obtain rfl : x = e := Option.some.inj hi
      have hother : ∀ e ∈ rest, BitVec.ofNat 8 e.ident ≠ BitVec.ofNat 8 x.ident :=
        fun e he heq => hnot (heq ▸ List.mem_map_of_mem he)
      rw [catRead_congr (entryAt_placeEntries_other rest _ _ _ hother), catRead_writeEntry_entryWord _ _ hwf]
      rfl
    | succ i =>
      rw [ih (j + 1) (base + x.descs.length) (writeEntry_wf hwf) hnodup i e hi, List.take_succ_cons,
        List.flatMap_cons, List.length_append]
      congr 2 <;> omega

/-- The dense tables of a text, before any entry is placed. -/
def romTables (es : List EntryText) : Memory where
  entry := []
  desc := (es.flatMap EntryText.descs).map (lineWord (internAll es))
  name := internAll es
  descr := es.map EntryText.descr

/-- What an assembled text satisfies: it fits the widths of R65 and R68, its identifiers are distinct, and its ROM is the
placing of its entries. -/
theorem assembleRom_some {es : List EntryText} {m : Memory} (h : assembleRom es = some m) :
    fitsRom es = true ∧ (es.map EntryText.ident).Nodup ∧ m = placeEntries 0 0 es (romTables es) := by
  unfold assembleRom at h
  split_ifs at h with hfit
  exact ⟨hfit.1, hfit.2, (Option.some.inj h).symm⟩

theorem fitsRom_iff (es : List EntryText) : fitsRom es = true ↔ (internAll es).length ≤ 1024 ∧ es.length ≤ 1024 ∧
    (es.flatMap EntryText.descs).length < 65536 ∧ ∀ e ∈ es, e.descs.length ≤ 31 ∧ e.ident < 256 := by
  simp only [fitsRom, Bool.and_eq_true, decide_eq_true_eq, List.all_eq_true, and_assoc]

/-- Distinct identifiers in range are distinct as data identifiers. -/
theorem nodup_dataIds {es : List EntryText} (hlt : ∀ e ∈ es, e.ident < 256) (h : (es.map EntryText.ident).Nodup) :
    (es.map fun e => BitVec.ofNat 8 e.ident).Nodup := by
  refine List.Nodup.of_map BitVec.toNat ?_
  rw [List.map_map]
  have hid : es.map (BitVec.toNat ∘ fun e => BitVec.ofNat 8 e.ident) = es.map EntryText.ident :=
    List.map_congr_left fun e he => by simp [Nat.mod_eq_of_lt (hlt e he)]
  rwa [hid]

/-- The lines before an entry are among the lines of the text. -/
theorem length_lines_take_le (es : List EntryText) (j : Nat) :
    ((es.take j).flatMap EntryText.descs).length ≤ (es.flatMap EntryText.descs).length := by
  conv_rhs => rw [← List.take_append_drop j es, List.flatMap_append, List.length_append]
  exact Nat.le_add_right _ _

/-- The fields of a placed record are the numbers placed, where they fit. -/
theorem placedRecord_toNat {j base : Nat} {e : EntryText} (hj : j < 1024) (hbase : base < 65536)
    (hn : e.descs.length ≤ 31) : (placedRecord j base e).descr.toNat = j ∧
      (placedRecord j base e).n.toNat = e.descs.length ∧ (placedRecord j base e).base.toNat = base := by
  simp only [placedRecord, BitVec.toNat_ofNat]
  omega

/-- Settles O14: the tables are laid out before the entries, and each entry's word is placed once. -/
theorem assembledTextLayout : Obligations.AssembledTextLayout := by
  unfold Obligations.AssembledTextLayout
  intro es m h
  obtain ⟨hfit, hnodup, rfl⟩ := assembleRom_some h
  obtain ⟨-, hlen, hlines, hall⟩ := (fitsRom_iff es).mp hfit
  obtain ⟨hname, hdescr, hdesc⟩ := placeEntries_tables es 0 0 (romTables es)
  have hwf : (romTables es).wf = true := rfl
  refine ⟨placeEntries_wf es 0 0 hwf, hname.trans (internAll_eq es), hdescr, by rw [hdesc, hname]; rfl, ?_, ?_⟩
  · intro j e hj
    have hids := nodup_dataIds (fun e he => (hall e he).2) hnodup
    have hread := catRead_placeEntries es 0 0 hwf hids j e hj
    rw [Nat.zero_add, Nat.zero_add] at hread
    obtain ⟨hjlt, _⟩ := List.getElem?_eq_some_iff.mp hj
    have hbase := length_lines_take_le es j
    exact ⟨_, hread, placedRecord_toNat (by omega) (by omega) (hall e (List.mem_of_getElem? hj)).1⟩
  · intro id hid
    refine entryAt_placeEntries_other es 0 0 _ fun e he heq => hid e he ?_
    rw [← heq, BitVec.toNat_ofNat, Nat.mod_eq_of_lt (hall e he).2]

/-! ## The header bits no result depends on (R61) -/

/-- DECODE reads `MT`, `ID` and `P` of a frame and nothing else of it (R115). -/
theorem decodeFrame_congr (c : Params) (m : Memory) {w w' : Word32} (hmt : frameMt w = frameMt w')
    (hid : frameId w = frameId w') (hp : framePayload w = framePayload w') :
    decodeFrame c m (.valid w) = decodeFrame c m (.valid w') := by
  simp only [decodeFrame, hmt, hid, hp]

/-- Slices of two vectors are equal where the bits in the slice are. -/
theorem extractLsb'_congr {n a l : Nat} {x y : BitVec n} (h : ∀ i, a ≤ i → i < a + l → x.getLsbD i = y.getLsbD i) :
    x.extractLsb' a l = y.extractLsb' a l := by
  apply BitVec.eq_of_getLsbD_eq
  intro i hi
  rw [BitVec.getLsbD_extractLsb', BitVec.getLsbD_extractLsb', h (a + i) (by omega) (by omega)]

/-- Settles O16: `MT` is bits 30:28, `ID` bits 23:16 and `P` bits 15:0, none of them bit 31 or 27:24. -/
theorem ignoredHeaderBits : Obligations.IgnoredHeaderBits := by
  unfold Obligations.IgnoredHeaderBits
  intro c m w w' h
  have hmt : frameMt w = frameMt w' := by
    rw [frameMt_eq, frameMt_eq]
    exact extractLsb'_congr fun i _ _ => h i (by omega) (by omega) (by omega)
  have hid : frameId w = frameId w' := extractLsb'_congr fun i _ _ => h i (by omega) (by omega) (by omega)
  have hp : framePayload w = framePayload w' := extractLsb'_congr fun i _ _ => h i (by omega) (by omega) (by omega)
  exact decodeFrame_congr c m hmt hid hp

end Sys2Proof.Machine

/-! PROOFS. The frame at the block's edge (40_frame_header.md): the header fields as numbers (R92-R94, R130), and the
ingress adapter's digits (R63, R90, R91). -/

namespace Sys2Proof.Machine

/-! ## The header fields as numbers (R92-R94, R130) -/

theorem frameB0_toNat (w : Word32) : (frameB0 w).toNat = w.toNat / 2 ^ 24 := by
  rw [frameB0, BitVec.extractLsb'_toNat, Nat.shiftRight_eq_div_pow]
  omega

theorem frameMt_toNat (w : Word32) : (frameMt w).toNat = w.toNat / 2 ^ 28 % 8 := by
  rw [frameMt_eq, BitVec.extractLsb'_toNat, Nat.shiftRight_eq_div_pow]

theorem frameId_toNat (w : Word32) : (frameId w).toNat = w.toNat / 2 ^ 16 % 256 := by
  rw [frameId, BitVec.extractLsb'_toNat, Nat.shiftRight_eq_div_pow]

theorem framePayload_toNat (w : Word32) : (framePayload w).toNat = w.toNat % 2 ^ 16 := by
  rw [framePayload, BitVec.extractLsb'_toNat, Nat.shiftRight_zero]

theorem narrow_high (p : Bits16) : narrow p .high = .byte (highByte p) := congrArg Narrowed.byte (narrowByte_high p)
theorem narrow_low (p : Bits16) : narrow p .low = .byte (lowByte p) := congrArg Narrowed.byte (narrowByte_low p)

/-- Settles O15: each field is a quotient or remainder of the frame's number, and the bytes are its digits in base 256. -/
theorem headerFieldsOfBytes : Obligations.HeaderFieldsOfBytes := by
  unfold Obligations.HeaderFieldsOfBytes
  intro b0 b1 hb lb w h
  have hb1 := b1.isLt
  have hhb := hb.isLt
  have hlb := lb.isLt
  have hP : (framePayload w).toNat = hb.toNat * 256 + lb.toNat := by rw [framePayload_toNat]; omega
  have hHB : highByte (framePayload w) = hb := BitVec.eq_of_toNat_eq (by rw [highByte_toNat, hP]; omega)
  have hLB : lowByte (framePayload w) = lb := BitVec.eq_of_toNat_eq (by rw [lowByte_toNat, hP]; omega)
  refine ⟨BitVec.eq_of_toNat_eq ?_, ?_, BitVec.eq_of_toNat_eq ?_, hP, ?_, ?_, rfl⟩
  · rw [frameB0_toNat]; omega
  · rw [frameMt_toNat]; omega
  · rw [frameId_toNat]; omega
  · rw [narrow_high, hHB]
  · rw [narrow_low, hLB]

/-! ## One hexadecimal digit (R63) -/

/-- The codes of the hexadecimal digits are the three ranges that `hexVal` tests. -/
theorem mem_hexDigitChars_iff (c : Char) : c ∈ "0123456789abcdefABCDEF".toList ↔
    (48 ≤ c.toNat ∧ c.toNat ≤ 57) ∨ (97 ≤ c.toNat ∧ c.toNat ≤ 102) ∨ (65 ≤ c.toNat ∧ c.toNat ≤ 70) := by
  have codes : "0123456789abcdefABCDEF".toList.map Char.toNat =
      List.range' 48 10 ++ (List.range' 97 6 ++ List.range' 65 6) := by decide
  rw [← List.mem_map_of_injective fun _ _ => Char.toNat_inj.mp, codes]
  simp only [List.mem_append, List.mem_range'_1]
  omega

theorem hexVal_eq_none_iff (c : Char) : hexVal c = none ↔ c ∉ "0123456789abcdefABCDEF".toList := by
  rw [mem_hexDigitChars_iff, hexVal]
  split_ifs <;> simp only [false_iff, true_iff] <;> omega

/-- The digit of value `d`, of either case, has that value. -/
theorem hexVal_digit {c : Char} {d : Nat} (hd : d < 16)
    (hc : c = "0123456789abcdef".toList.getD d 'x' ∨ c = "0123456789ABCDEF".toList.getD d 'x') :
    hexVal c = some d := by
  have lower : ∀ d < 16, hexVal ("0123456789abcdef".toList.getD d 'x') = some d := by decide
  have upper : ∀ d < 16, hexVal ("0123456789ABCDEF".toList.getD d 'x') = some d := by decide
  rcases hc with rfl | rfl
  · exact lower d hd
  · exact upper d hd

/-! ## The digits of a string (R90, R91) -/

theorem hexDigits_eq_none_iff (cs : List Char) : hexDigits cs = none ↔ ∃ c ∈ cs, hexVal c = none := by
  induction cs with
  | nil => simp [hexDigits]
  | cons c cs ih =>
    rw [List.exists_mem_cons_iff, ← ih, hexDigits]
    cases hexVal c <;> cases hexDigits cs <;> simp

theorem hexDigits_of_map : ∀ {cs : List Char} {ds : List Nat}, cs.map hexVal = ds.map some → hexDigits cs = some ds
  | [], [], _ => rfl
  | c :: cs, d :: ds, h => by
    obtain ⟨hd, hds⟩ := List.cons.inj h
    rw [hexDigits, hd, hexDigits_of_map hds]

theorem ingressChars_eq_invalid_iff (cs : List Char) :
    ingressChars cs = .invalid ↔ cs.length ≠ 8 ∨ hexDigits cs = none := by
  unfold ingressChars
  by_cases hlen : cs.length ≠ 8
  · simp [hlen]
  · cases hds : hexDigits cs <;> simp [hlen]

theorem ingressChars_of_digits {cs : List Char} {ds : List Nat} (hlen : cs.length = 8) (h : hexDigits cs = some ds) :
    ingressChars cs = .valid (BitVec.ofNat 32 (hexNumber ds)) := by
  rw [ingressChars, if_neg (not_not.mpr hlen), h]

/-- Settles O18: a string of eight characters has no digits exactly when one of its characters has no value. -/
theorem ingressRejectsExactly : Obligations.IngressRejectsExactly := by
  unfold Obligations.IngressRejectsExactly
  intro cs
  simp only [ingressChars_eq_invalid_iff, hexDigits_eq_none_iff, hexVal_eq_none_iff]

/-! ## The number of a list of digits (R63) -/

theorem hexNumber_concat (ds : List Nat) (d : Nat) : hexNumber (ds ++ [d]) = hexNumber ds * 16 + d := by
  rw [hexNumber, List.foldl_append]
  rfl

theorem hexNumber_lt (ds : List Nat) (h : ∀ d ∈ ds, d < 16) : hexNumber ds < 16 ^ ds.length := by
  induction ds using List.reverseRecOn with
  | nil => decide
  | append_singleton ds d ih =>
    have hds := ih fun x hx => h x (List.mem_append_left _ hx)
    have hd := h d (List.mem_append_right _ (List.mem_singleton_self d))
    rw [hexNumber_concat, List.length_append, List.length_singleton, Nat.pow_succ]
    omega

/-- Big-endian: digit `i` of `n` weighs `16 ^ (n - 1 - i)`. -/
theorem hexNumber_ofFn {n : Nat} (d : Fin n → Nat) :
    hexNumber (List.ofFn d) = ∑ i : Fin n, d i * 16 ^ (n - 1 - i.val) := by
  induction n with
  | zero => rfl
  | succ n ih =>
    have shift : ∀ i : Fin n, d i.castSucc * 16 ^ (n + 1 - 1 - i.castSucc.val) =
        d i.castSucc * 16 ^ (n - 1 - i.val) * 16 := fun i => by
      rw [Nat.mul_assoc, ← Nat.pow_succ, Fin.val_castSucc, show n + 1 - 1 - i.val = n - 1 - i.val + 1 by omega]
    rw [List.ofFn_succ', List.concat_eq_append, hexNumber_concat, ih, Fin.sum_univ_castSucc,
      Finset.sum_congr rfl fun i _ => shift i, Finset.sum_mul]
    simp

/-- Settles O17: the characters have the given digits, and eight digits make a number of 32 bits. -/
theorem ingressOfHexDigits : Obligations.IngressOfHexDigits := by
  unfold Obligations.IngressOfHexDigits
  intro cs d hlen h
  have hmap : cs.map hexVal = (List.ofFn d).map some := by
    refine List.ext_getElem (by simp [hlen]) fun i hi _ => ?_
    rw [List.length_map] at hi
    obtain ⟨c, hc, hd, hcase⟩ := h ⟨i, hlen ▸ hi⟩
    obtain ⟨_, rfl⟩ := List.getElem?_eq_some_iff.mp hc
    rw [List.getElem_map, List.getElem_map, List.getElem_ofFn]
    exact hexVal_digit hd hcase
  have hlt : hexNumber (List.ofFn d) < 2 ^ 32 := by
    have hbound := hexNumber_lt (List.ofFn d) fun x hx => by
      obtain ⟨i, rfl⟩ := List.mem_ofFn.mp hx
      obtain ⟨_, _, hd, _⟩ := h i
      exact hd
    rwa [List.length_ofFn] at hbound
  refine ⟨_, ingressChars_of_digits hlen (hexDigits_of_map hmap), ?_⟩
  rw [BitVec.toNat_ofNat, Nat.mod_eq_of_lt hlt, hexNumber_ofFn]

end Sys2Proof.Machine

/-! PROOFS. The descriptor loop (41_catalog_lookup.md R110-R117): one step of it, what a visit changes and leaves, and the
fold of an entry's descriptors. -/

namespace Sys2Proof.Machine

/-! ## One step (R113, R115, R205) -/

theorem fetchDesc_of_decode {m : Memory} {t : Txn} {w : Word32} {i : Instr}
    (hw : m.descAt (t.entry.base.toNat + t.k) = some w) (hd : decode w = .ok i) : fetchDesc m t = .ok i := by
  simp only [fetchDesc, hw, hd]

/-- Settles O19: the fetch reads the word and decodes it. -/
theorem stepRunsDecodedInstr : Obligations.StepRunsDecodedInstr := by
  unfold Obligations.StepRunsDecodedInstr
  intro s t w i hb ht hk hw hd
  rw [step_visit hb ht hk, fetchDesc_of_decode hw hd]

/-- Settles O20: the three outcomes of the port value taken, `MT` and `ID` read as bits. -/
theorem acceptedFrameOutcomes : Obligations.AcceptedFrameOutcomes := by
  unfold Obligations.AcceptedFrameOutcomes
  rintro s rest ⟨hb, ht⟩
  rw [step_accept hb ht]
  refine ⟨fun hp => ?_, fun w hp => ⟨fun hc => ?_, fun e hc => ?_⟩⟩
  · rw [acceptFrame_of_invalid hp]
  · rw [acceptFrame_of_absent hp hc, frameMt_eq]; rfl
  · rw [acceptFrame_of_present hp hc]; rfl

theorem result_eq_bits (t : Txn) : t.result =
    .decoded (t.frame.extractLsb' 28 3) (t.frame.extractLsb' 16 8) t.entry.descr t.props := by
  rw [Txn.result, Txn.mt, frameMt_eq]; rfl

/-- Settles O21: with `k = n` no descriptor is left, so the step closes the transaction. -/
theorem finishedTransactionGivesResult : Obligations.FinishedTransactionGivesResult := by
  unfold Obligations.FinishedTransactionGivesResult
  intro s t hb ht hk
  rw [step_finish hb ht (by omega), finishTxn, result_eq_bits]

/-! ## The visit of a descriptor (R112, R113) -/

theorem visitInstr_of_not_applies {c : Params} {i : Instr} {t : Txn} (h : applies i.filter t.mt = false) :
    visitInstr c i t = t.skip := by
  rw [visitInstr, h, if_neg Bool.false_ne_true]

/-- A filter that names another message type lets nothing pass (R112). -/
theorem applies_some_of_ne {m mt : MT3} (h : m ≠ mt) : applies (some m) mt = false := beq_false_of_ne h

/-- Settles O24: a filter that names another message type lets no descriptor apply. -/
theorem filteredDescriptorIsSkipped : Obligations.FilteredDescriptorIsSkipped := by
  unfold Obligations.FilteredDescriptorIsSkipped
  intro i s t m ht hf hm
  have hskip : applies i.filter t.mt = false := by
    rw [hf, Txn.mt, frameMt_eq]; exact applies_some_of_ne hm
  rw [exec_of_txn i ht, visitInstr_of_not_applies hskip]; rfl

section Iteration
variable (c : Params) (p : Bits16) (props : List Property) {mt : MT3} {i : Instr}

theorem assembleOne_of_applies (h : applies i.filter mt = true) :
    assembleOne c mt p props i = insertProp i.name (instrValue c p i) props := by
  rw [assembleOne, if_pos h]

theorem assembleOne_of_not_applies (h : applies i.filter mt = false) :
    assembleOne c mt p props i = props := by
  rw [assembleOne, h, if_neg Bool.false_ne_true]

/-- One iteration writes the instruction's name only (R114). -/
theorem valueOf_assembleOne_other {n : NameIdx} (h : n ≠ i.name) :
    valueOf (assembleOne c mt p props i) n = valueOf props n := by
  cases ha : applies i.filter mt with
  | true => rw [assembleOne_of_applies c p props ha, valueOf_insertProp_other _ _ h]
  | false => rw [assembleOne_of_not_applies c p props ha]

/-- One iteration leaves the names as they are or puts the instruction's at the end (R114). -/
theorem namesOf_assembleOne : namesOf (assembleOne c mt p props i) = namesOf props ∨
    namesOf (assembleOne c mt p props i) = namesOf props ++ [i.name] := by
  cases ha : applies i.filter mt with
  | true =>
    rw [assembleOne_of_applies c p props ha, namesOf_insertProp]
    exact ite_eq_or_eq _ _ _
  | false => rw [assembleOne_of_not_applies c p props ha]; exact .inl rfl

end Iteration

/-- Settles O35: an instruction changes the transaction only, and of its properties what one iteration changes. -/
theorem instructionFrame : Obligations.InstructionFrame := by
  unfold Obligations.InstructionFrame
  intro i s s' h
  obtain ⟨t, ht, rfl⟩ := exec_next h
  refine ⟨rfl, rfl, rfl, rfl, rfl, fun _ => rfl, fun _ => rfl, rfl, rfl, t, _, ht, rfl, visitInstr_frame _ _ _,
    visitInstr_entry _ _ _, visitInstr_k _ _ _, ?_⟩
  rw [visitInstr_props]
  refine ⟨fun n hn => valueOf_assembleOne_other _ _ _ hn, ?_⟩
  obtain he | he := namesOf_assembleOne s.params t.payload t.props (mt := t.mt) (i := i) <;> rw [he]
  · exact ⟨⟨[], List.append_nil _⟩, fun _ hn => .inl hn⟩
  · exact ⟨⟨[i.name], rfl⟩, fun n hn => by simpa using hn⟩

/-! ## Insertion (R114) -/

theorem namesOf_insertProp_of_mem {n : NameIdx} {l : List Property} (v : Value) (h : n ∈ namesOf l) :
    namesOf (insertProp n v l) = namesOf l := by
  rw [namesOf_insertProp, if_pos h]

/-- A new name goes to the end. -/
theorem insertProp_of_not_mem {n : NameIdx} (v : Value) : ∀ {l : List Property}, n ∉ namesOf l →
    insertProp n v l = l ++ [⟨n, v⟩]
  | [], _ => rfl
  | q :: l, h => by
    rw [namesOf_cons, List.mem_cons, not_or] at h
    rw [insertProp, if_neg (Ne.symm h.1), insertProp_of_not_mem v h.2, List.cons_append]

/-- Settles O37, by the rules of an insertion. -/
theorem insertIsLastWriteWins : Obligations.InsertIsLastWriteWins := by
  unfold Obligations.InsertIsLastWriteWins
  exact fun props name v => ⟨valueOf_insertProp_same _ _ _, fun _ hn => valueOf_insertProp_other _ _ hn,
    namesOf_insertProp_of_mem v, insertProp_of_not_mem v, nodup_insertProp⟩

/-! ## The fold of the descriptor loop (R113, R114, R117) -/

/-- The descriptors of a list that apply to a message type (R112). -/
def applicable (mt : MT3) (is : List Instr) : List Instr := is.filter fun i => applies i.filter mt

theorem mem_applicable {mt : MT3} {is : List Instr} {i : Instr} :
    i ∈ applicable mt is ↔ i ∈ is ∧ applies i.filter mt = true := List.mem_filter

/-- The insertions of a list of conversions, in order, into an empty list of properties (R114). -/
def insertAll (c : Params) (p : Bits16) (is : List Instr) : List Property :=
  is.foldl (fun props i => insertProp i.name (instrValue c p i) props) []

/-- The descriptor loop is the insertion of the conversions that apply: the others take no part in it (R113, R117). -/
theorem assemble_eq_insertAll (c : Params) (mt : MT3) (p : Bits16) (is : List Instr) :
    assemble c mt p is [] = insertAll c p (applicable mt is) := by
  rw [insertAll, applicable, List.foldl_filter]; rfl

/-- The list of names in order of first appearance, with one more name: the name stands there or goes to the end. -/
theorem dedup_reverse_concat (l : List NameIdx) (n : NameIdx) : (l ++ [n]).reverse.dedup.reverse =
    if n ∈ l.reverse.dedup.reverse then l.reverse.dedup.reverse else l.reverse.dedup.reverse ++ [n] := by
  have hmem : n ∈ l.reverse.dedup.reverse ↔ n ∈ l.reverse := by rw [List.mem_reverse, List.mem_dedup]
  rw [List.reverse_append, List.reverse_singleton, List.singleton_append]
  by_cases h : n ∈ l.reverse
  · rw [if_pos (hmem.mpr h), List.dedup_cons_of_mem h]
  · rw [if_neg (mt hmem.mp h), List.dedup_cons_of_notMem h, List.reverse_cons]

section Insertions
variable (c : Params) (p : Bits16) (is : List Instr)

theorem insertAll_concat (i : Instr) :
    insertAll c p (is ++ [i]) = insertProp i.name (instrValue c p i) (insertAll c p is) := List.foldl_concat ..

/-- The names stand in order of first appearance. -/
theorem namesOf_insertAll : namesOf (insertAll c p is) = (is.map Instr.name).reverse.dedup.reverse := by
  induction is using List.reverseRecOn with
  | nil => rfl
  | append_singleton is i ih =>
    rw [insertAll_concat, namesOf_insertProp, ih, List.map_append, List.map_singleton, dedup_reverse_concat]

theorem mem_namesOf_insertAll (n : NameIdx) : n ∈ namesOf (insertAll c p is) ↔ n ∈ is.map Instr.name := by
  rw [namesOf_insertAll, List.mem_reverse, List.mem_dedup, List.mem_reverse]

/-- A name's value is the conversion of the last instruction that has the name. -/
theorem valueOf_insertAll (n : NameIdx) : valueOf (insertAll c p is) n =
    (is.reverse.find? fun i => i.name == n).map (instrValue c p) := by
  induction is using List.reverseRecOn with
  | nil => rfl
  | append_singleton is i ih =>
    rw [insertAll_concat, List.reverse_append, List.reverse_singleton, List.singleton_append]
    by_cases hn : i.name = n
    · rw [List.find?_cons_of_pos (by simpa using hn), ← hn, valueOf_insertProp_same]; rfl
    · rw [valueOf_insertProp_other _ _ (Ne.symm hn), ih, List.find?_cons_of_neg (by simpa using hn)]

/-- Where no name stands twice, every insertion appends. -/
theorem insertAll_of_nodup (h : (is.map Instr.name).Nodup) :
    insertAll c p is = is.map fun i => ⟨i.name, instrValue c p i⟩ := by
  induction is using List.reverseRecOn with
  | nil => rfl
  | append_singleton is i ih =>
    rw [List.map_append, List.nodup_append] at h
    obtain ⟨hnodup, -, hdisj⟩ := h
    have hnew : i.name ∉ namesOf (insertAll c p is) := by
      rw [mem_namesOf_insertAll]
      exact fun hmem => hdisj _ hmem _ (List.mem_singleton_self _) rfl
    rw [insertAll_concat, insertProp_of_not_mem _ hnew, ih hnodup, List.map_append]; rfl

/-- Every property is the conversion of an instruction of the list. -/
theorem mem_insertAll {q : Property} (h : q ∈ insertAll c p is) : ∃ i ∈ is, q = ⟨i.name, instrValue c p i⟩ := by
  induction is using List.reverseRecOn with
  | nil => exact absurd h List.not_mem_nil
  | append_singleton is i ih =>
    rw [insertAll_concat] at h
    obtain he | hmem := mem_insertProp h
    · exact ⟨i, List.mem_append_right _ (List.mem_singleton_self i), he⟩
    · obtain ⟨j, hj, he⟩ := ih hmem
      exact ⟨j, List.mem_append_left _ hj, he⟩

end Insertions

/-- Settles O38: the loop is the insertion of the conversions that apply, in order. -/
theorem assemblyIsOrderOfConversions : Obligations.AssemblyIsOrderOfConversions := by
  unfold Obligations.AssemblyIsOrderOfConversions
  intro c mt p is
  rw [assemble_eq_insertAll]
  exact ⟨namesOf_insertAll c p _, valueOf_insertAll c p _⟩

/-! ## The fold without collisions (R114, W9) -/

theorem collide_iff (a b : Instr) : collide a b = true ↔ a.name = b.name ∧ filtersOverlap a.filter b.filter = true := by
  rw [collide, Bool.and_eq_true, beq_iff_eq]

/-- Filters that let the same message type pass overlap. -/
theorem filtersOverlap_of_applies {f f' : Filter} {mt : MT3} (h : applies f mt = true) (h' : applies f' mt = true) :
    filtersOverlap f f' = true := by
  cases f with
  | none => rfl
  | some m =>
    cases f' with
    | none => rfl
    | some m' =>
      have hm : m = mt := beq_iff_eq.mp h
      have hm' : m' = mt := beq_iff_eq.mp h'
      exact beq_iff_eq.mpr (hm.trans hm'.symm)

/-- An accepted entry under `REJECT_NAME_COLLISION`: no descriptor collides with an earlier one (W9). -/
theorem pairwise_not_collide {c : Params} {m : Memory} {id : DataId} {e : EntryRec} {is : List Instr}
    (hl : loadCheck c m = none) (hr : c.rejectCollision = true) (he : catRead m id = some e)
    (his : entryInstrs m e = some is) : is.Pairwise fun a i => ¬ collide i a = true := by
  obtain ⟨w, hslot, hp, rfl, -⟩ := accepted_slot hl he
  have hall : decodeAll (entryWords m (entryRecord w)) = some is := by
    rw [entryInstrs] at his
    split_ifs at his
    exact his
  have hnone := firstCollision_none (checkSlot_none_collision hslot hp hr hall)
  refine List.pairwise_iff_getElem.mpr fun j k hj hk hjk => ?_
  exact hnone k _ _ (List.getElem?_eq_getElem hk) (.inr ⟨j, hjk, List.getElem?_eq_getElem hj⟩)

/-- Descriptors that apply to one message type and do not collide have different names. -/
theorem nodup_names_applicable {is : List Instr} (mt : MT3) (h : is.Pairwise fun a i => ¬ collide i a = true) :
    ((applicable mt is).map Instr.name).Nodup := by
  refine List.pairwise_map.mpr ((h.sublist List.filter_sublist).imp_of_mem fun {a i} ha hi hcol hname => ?_)
  obtain ⟨-, ha⟩ := mem_applicable.mp ha
  obtain ⟨-, hi⟩ := mem_applicable.mp hi
  exact hcol ((collide_iff i a).mpr ⟨hname.symm, filtersOverlap_of_applies hi ha⟩)

/-- Settles O39: without collisions the names of the descriptors that apply are unique. -/
theorem rejectedCollisionsNeverOverwrite : Obligations.RejectedCollisionsNeverOverwrite := by
  unfold Obligations.RejectedCollisionsNeverOverwrite
  intro c m id e is mt p hl hr he his
  rw [assemble_eq_insertAll]
  exact insertAll_of_nodup c p _ (nodup_names_applicable mt (pairwise_not_collide hl hr he his))

end Sys2Proof.Machine

/-! PROOFS. The ranges of the values (44_output_rendering.md R180): every converter stays in its tag's range. -/

namespace Sys2Proof.Machine

theorem inRange_int {z : Int} (h : -32768 ≤ z) (h' : z ≤ 65535) : (Value.int z).inRange = true := by
  simp only [Value.inRange, decide_eq_true h, decide_eq_true h', Bool.and_self]

theorem inRange_zext {n : Nat} (v : BitVec n) (hn : n ≤ 16) : (Value.int (zext v)).inRange = true := by
  have hv : v.toNat < 2 ^ 16 := v.isLt.trans_le (Nat.pow_le_pow_right (by decide) hn)
  exact inRange_int (by rw [zext]; omega) (by rw [zext]; omega)

/-- `sext_N` is the two's complement value. -/
theorem sext_eq_toInt {n : Nat} (v : BitVec n) : sext v = v.toInt := by
  rw [sext, zext, BitVec.toInt_eq_msb_cond]
  split_ifs
  · push_cast; rfl
  · exact Int.sub_zero _

theorem inRange_sext {n : Nat} (v : BitVec n) (hn : n ≤ 16) : (Value.int (sext v)).inRange = true := by
  have hpow : (2 : Int) ^ (n - 1) ≤ 2 ^ 15 := pow_le_pow_right₀ (by decide) (by omega)
  have hlo := BitVec.le_toInt v
  have hhi := BitVec.toInt_lt (x := v)
  rw [sext_eq_toInt]
  exact inRange_int (by omega) (by omega)

/-- 256 times the F8.8 value, in either mode (R146, R147). -/
theorem f88Numerator_bounds (mode : F88NegMode) (v : Bits16) :
    -32768 ≤ f88Numerator mode v ∧ f88Numerator mode v ≤ 32767 := by
  have hlow := (lowByte v).isLt
  have hhigh := highByte_toNat v
  have hv := v.isLt
  unfold f88Numerator
  rw [BitVec.msb_eq_decide]
  split_ifs with h <;> rw [decide_eq_true_eq] at h
  · cases mode with
    | twosComplement =>
      rw [sext_eq_toInt]
      exact ⟨BitVec.le_toInt v, Int.lt_add_one_iff.mp BitVec.toInt_lt⟩
    | invertHbPlusFraction =>
      simp only [zext, BitVec.toNat_not]
      omega
  · simp only [zext]
    omega

/-- Rounding to hundredths keeps the F8.8 range of R148. -/
theorem roundCenti_bounds (tie : F88Tie) {z : Int} (h : -32768 ≤ z) (h' : z ≤ 32767) :
    -12800 ≤ roundCenti tie z ∧ roundCenti tie z ≤ 12800 := by
  cases tie with
  | halfAwayFromZero =>
    rw [roundCenti]
    obtain hneg | rfl | hpos := lt_trichotomy z 0
    · rw [Int.sign_eq_neg_one_of_neg hneg]; omega
    · decide
    · rw [Int.sign_eq_one_of_pos hpos]; omega
  | halfTowardPosInf => rw [roundCenti]; omega

theorem inRange_convF88 (mode : F88NegMode) (tie : F88Tie) (v : Bits16) : (convF88 mode tie v).inRange = true := by
  obtain ⟨hlo, hhi⟩ := f88Numerator_bounds mode v
  obtain ⟨h, h'⟩ := roundCenti_bounds tie hlo hhi
  simp only [convF88, Value.inRange, decide_eq_true h, decide_eq_true h', Bool.and_self]

theorem inRange_convDaytime (g : DtGuard) (v : Bits16) : (convDaytime g v).inRange = true := by
  rw [convDaytime]
  split_ifs
  · rfl
  · exact inRange_zext v le_rfl

theorem inRange_convDate (g : DtGuard) (v : Bits16) : (convDate g v).inRange = true := by
  rw [convDate]
  split_ifs
  · rfl
  · rfl
  · exact inRange_zext v le_rfl

theorem inRange_convSvc (v : Bits16) : (convSvc v).inRange = true := by
  unfold convSvc
  split_ifs
  · rfl
  · split <;> rfl

/-- Every converter stays in its tag's range, under every setting. -/
theorem inRange_instrValue (c : Params) (p : Bits16) (i : Instr) : (instrValue c p i).inRange = true := by
  cases i with
  | flag => rfl
  | u8 _ h _ => exact inRange_zext (narrowByte p h) (by decide)
  | s8 _ h _ => exact inRange_sext (narrowByte p h) (by decide)
  | u16 | year => exact inRange_zext (narrowWord p) le_rfl
  | s16 => exact inRange_sext (narrowWord p) le_rfl
  | f88 => exact inRange_convF88 _ _ _
  | daytime => exact inRange_convDaytime _ _
  | date => exact inRange_convDate _ _
  | svc => exact inRange_convSvc _

end Sys2Proof.Machine

/-! PROOFS. The whole transaction (41_catalog_lookup.md R115, R118): the steps give DECODE's result, its bounds, and
the soundness of every result shown. -/

namespace Sys2Proof.Machine

/-- Settles O53: the lookup, the visits and the closing step are DECODE's fold. -/
theorem transactionRefinesDecode : Obligations.TransactionRefinesDecode := by
  unfold Obligations.TransactionRefinesDecode
  exact fun _ _ _ h hs hp => runSteps_transaction h hs hp

/-! ## What a DECODED result is, and its bounds (R115, R118) -/

/-- A DECODED result is the fold of the descriptors of its identifier's entry. -/
theorem decodeFrame_decoded {c : Params} {m : Memory} {f : FrameIn} {mt : MT3} {id : DataId} {d : BitVec 10}
    {props : List Property} (h : decodeFrame c m f = some (.decoded mt id d props)) :
    ∃ w e is, f = .valid w ∧ id = frameId w ∧ catRead m id = some e ∧ e.descr = d ∧ entryInstrs m e = some is ∧
      props = assemble c mt (framePayload w) is [] := by
  obtain ⟨-, hr⟩ | ⟨_, -, -, hr⟩ | ⟨w, e, _, rfl, he, hr⟩ := decodeFrame_cases h
  · cases hr
  · cases hr
  · cases hr
    rw [decodeFrame_of_present c he] at h
    obtain ⟨is, his, hr⟩ := Option.map_eq_some_iff.mp h
    cases hr
    exact ⟨w, e, is, rfl, rfl, he, rfl, his, rfl⟩

theorem accepted_n_le {c : Params} {m : Memory} (hl : loadCheck c m = none) {id : DataId} {e : EntryRec}
    (he : catRead m id = some e) : e.n.toNat ≤ c.maxDesc :=
  ((entryInBounds_iff c m e).mp (accepted_entry hl he).1).1

theorem stepsOf_le {c : Params} {m : Memory} (hl : loadCheck c m = none) (f : FrameIn) :
    stepsOf m f ≤ c.maxDesc + 2 := by
  cases f with
  | invalid => exact Nat.le_add_left 1 (c.maxDesc + 1)
  | valid w =>
    cases he : catRead m (frameId w) with
    | none => rw [stepsOf_of_absent he]; omega
    | some e => rw [stepsOf_of_present he]; exact Nat.add_le_add_right (accepted_n_le hl he) 2

/-- A DECODED result is of an entry of at most `MAX_DESC` descriptors, has at most one property for each, and unique names. -/
theorem decodeFrame_decoded_bounded {c : Params} {m : Memory} (hl : loadCheck c m = none) {f : FrameIn} {mt : MT3}
    {id : DataId} {d : BitVec 10} {props : List Property} (h : decodeFrame c m f = some (.decoded mt id d props)) :
    ∃ e, catRead m id = some e ∧ e.descr = d ∧ props.length ≤ e.n.toNat ∧ e.n.toNat ≤ c.maxDesc ∧
      (namesOf props).Nodup := by
  obtain ⟨w, e, is, -, -, he, hd, his, rfl⟩ := decodeFrame_decoded h
  have hlen := length_assemble c mt (framePayload w) is []
  rw [List.length_nil, Nat.zero_add, entryInstrs_length his] at hlen
  exact ⟨e, he, hd, hlen, accepted_n_le hl he, nodup_assemble _ _ _ is [] List.nodup_nil⟩

/-- Settles O40: the loop visits `n` descriptors, and W8 bounds `n`. -/
theorem transactionIsBounded : Obligations.TransactionIsBounded := by
  unfold Obligations.TransactionIsBounded
  exact fun c m f hl => ⟨stepsOf_le hl f, fun _ _ _ _ h => decodeFrame_decoded_bounded hl h⟩

/-! ## Every result shown is sound (R114, R118, R180, R181) -/

/-- A block that shows a result is in operation, so its catalog is accepted. -/
theorem Inv.checked_of_output {s : State} (h : Inv s) {r : Result} (ho : s.output = some r) :
    loadCheck s.params s.rom = none := by
  cases hb : s.boot with
  | checkPending => exact nomatch (h.quiet hb).2.symm.trans ho
  | inOperation => exact h.checked hb

/-- Settles O57: the result shown is DECODE's of some frame, so the bounds of a transaction and the ranges of the converters
hold of it. -/
theorem shownResultsAreSound : Obligations.ShownResultsAreSound := by
  unfold Obligations.ShownResultsAreSound
  intro s mt id d props h ho
  obtain ⟨f, hf⟩ := h.output _ ho
  obtain ⟨e, he, hd, hlen, hmax, hnodup⟩ := decodeFrame_decoded_bounded (h.checked_of_output ho) hf
  refine ⟨hnodup, hlen.trans hmax, fun q hq => ?_, e, he, hd⟩
  obtain ⟨w, _, is, -, -, -, -, -, rfl⟩ := decodeFrame_decoded hf
  obtain ⟨i, -, rfl⟩ := (mem_assemble _ _ _ is [] q hq).resolve_left List.not_mem_nil
  exact inRange_instrValue _ _ i

/-! ## The reachable states (R230, R232) -/

theorem inv_reset : Inv State.reset :=
  ⟨empty_wf, nofun, fun _ => ⟨rfl, rfl⟩, nofun, nofun⟩

/-- The invariant does not read the port or the draw counter. -/
theorem Inv.congr {s s' : State} (h : Inv s) (hp : s'.params = s.params) (hr : s'.rom = s.rom) (hb : s'.boot = s.boot)
    (ht : s'.txn = s.txn) (ho : s'.output = s.output) : Inv s' := by
  constructor
  · exact hr ▸ h.canonical
  · rw [hp, hr, hb]; exact h.checked
  · rw [hb, ht, ho]; exact h.quiet
  · rw [hp, hr, ht]; exact h.txn
  · rw [hp, hr, ho]; exact h.output

/-- Nothing in progress and nothing shown: only the catalog and the boot phase are left of the invariant. -/
theorem inv_of_quiet {s : State} (hwf : s.rom.wf = true) (hl : s.boot = .inOperation → loadCheck s.params s.rom = none)
    (ht : s.txn = none) (ho : s.output = none) : Inv s :=
  ⟨hwf, hl, fun _ => ⟨ht, ho⟩, fun _ h => (nomatch ht.symm.trans h), fun _ h => (nomatch ho.symm.trans h)⟩

/-- Every host action keeps the invariant: it changes the port or the draws only, or leaves nothing in progress. -/
theorem Inv.hostAction {s : State} (h : Inv s) {a : HostAction} (ha : a.legal = true) : Inv (a.apply s) := by
  cases a with
  | present | presentString => exact h.congr rfl rfl rfl rfl rfl
  | load m => exact inv_of_quiet ha nofun rfl rfl
  | configure => exact inv_of_quiet h.canonical nofun rfl rfl
  | reset => exact inv_of_quiet h.canonical h.checked rfl rfl
  | readOutput =>
    exact h.congr (readOutput_params s) (readOutput_rom s) (readOutput_boot s) (readOutput_txn s) (readOutput_output s)

theorem Reachable.inv {s : State} (h : Reachable s) : Inv s := by
  induction h with
  | reset => exact inv_reset
  | step _ hs ih => exact stepKeepsInv _ _ ih hs
  | host a _ ha ih => exact ih.hostAction ha

/-- Settles O52: a reachable state satisfies the invariant. -/
theorem reachableOutputsAreSound : Obligations.ReachableOutputsAreSound := by
  unfold Obligations.ReachableOutputsAreSound
  exact fun s mt id d props h ho => shownResultsAreSound s mt id d props h.inv ho

end Sys2Proof.Machine

/-! PROOFS. The source's frames (41_catalog_lookup.md R119): what the host reads of a transaction (R182), and the value the
source writes. -/

namespace Sys2Proof.Machine

/-! ## What the host reads of a transaction (R182) -/

/-- The rendered pairs are those of the properties, the `j`-th with draw `draw + j`. -/
theorem mem_renderProps {m : Memory} {x : String × Rendered} {props : List Property} : ∀ {draw : Nat},
    x ∈ renderProps m draw props ↔
      ∃ j q, props[j]? = some q ∧ x = (m.nameAt q.name, renderValue (draw + j) q.value) := by
  induction props with
  | nil => simp [renderProps]
  | cons q rest ih =>
    intro draw
    rw [renderProps, List.mem_cons, ih]
    constructor
    · rintro (rfl | ⟨j, q', hq, rfl⟩)
      · exact ⟨0, q, rfl, rfl⟩
      · exact ⟨j + 1, q', hq, by rw [Nat.add_right_comm]; rfl⟩
    · rintro ⟨j, q', hq, rfl⟩
      cases j with
      | zero => cases hq; exact .inl rfl
      | succ j => exact .inr ⟨j, q', hq, by rw [Nat.add_right_comm]; rfl⟩

/-- After the transaction of a frame with a DECODED result the host reads the object of that result. -/
theorem host_reads_decoded {s : State} (h : Inv s) (hs : s.ready) {f : FrameIn} {rest : List FrameIn}
    (hp : s.port = f :: rest) {mt : MT3} {id : DataId} {d : BitVec 10} {props : List Property}
    (hf : decodeFrame s.params s.rom f = some (.decoded mt id d props)) :
    ∃ s', runSteps (stepsOf s.rom f) s = .next s' ∧ (readOutput s').1 =
      some (.object (msgTypeName mt) id.toNat (s.rom.descrAt d) (renderProps s.rom s.draws props)) := by
  obtain ⟨r, hr, hrun⟩ := runSteps_transaction h hs hp
  obtain rfl : r = .decoded mt id d props := Option.some.inj (hr.symm.trans hf)
  exact ⟨_, hrun, rfl⟩

/-! ## The source's frames (R119) -/

/-- The value of a pin renders as the source writes it, whatever the draw: its month is in the table. -/
theorem renderValue_of_pin {pin : Pin} (h : pin ∈ pins) (draw : Nat) : renderValue draw pin.value = pin.rendered := by
  simp only [pins, List.mem_cons, List.not_mem_nil, or_false] at h
  rcases h with rfl | rfl | rfl | rfl | rfl | rfl | rfl | rfl | rfl <;> rfl

/-- The pinned descriptor computes the pin's value from the source's frame, under every setting of the parameters. -/
theorem instrValue_of_pin {pin : Pin} (h : pin ∈ pins) (c : Params) (f : Filter) (n : NameIdx) :
    instrValue c (framePayload pin.frame) (pin.shape f n) = pin.value := by
  simp only [pins, List.mem_cons, List.not_mem_nil, or_false] at h
  rcases h with rfl | rfl | rfl | rfl | rfl | rfl | rfl | rfl | rfl <;> rfl

/-- A pin shown is a property of a DECODED result. -/
theorem decoded_of_pinShown {c : Params} {m : Memory} {pin : Pin} (h : pinShown c m pin = true) :
    ∃ mt id d props, decodeFrame c m (.valid pin.frame) = some (.decoded mt id d props) ∧
      ∃ q ∈ props, m.nameAt q.name = pin.name ∧ q.value = pin.value := by
  unfold pinShown at h
  split at h
  · rename_i mt id d props hf
    simp only [List.any_eq_true, Bool.and_eq_true, beq_iff_eq] at h
    exact ⟨mt, id, d, props, hf, h⟩
  · cases h

theorem pinShown_of_admitted {c : Params} {m : Memory} {pin : Pin} (h : admitted c m = true) (hpin : pin ∈ pins) :
    pinShown c m pin = true := by
  simp only [admitted, Bool.and_eq_true, List.all_eq_true] at h
  exact (h.2 pin hpin).2

/-- Settles O55: the admitted catalog's result has the pinned property, and its value renders as the source writes it. -/
theorem admittedCatalogsGiveSourceFrames : Obligations.AdmittedCatalogsGiveSourceFrames := by
  unfold Obligations.AdmittedCatalogsGiveSourceFrames
  intro s pin rest h hs hadm hpin hp
  obtain ⟨mt, id, d, props, hf, q, hq, hname, hvalue⟩ := decoded_of_pinShown (pinShown_of_admitted hadm hpin)
  obtain ⟨s', hrun, hread⟩ := host_reads_decoded h hs hp hf
  obtain ⟨_, _, _, hw, rfl, -⟩ := decodeFrame_decoded hf
  cases hw
  obtain ⟨j, hj⟩ := List.mem_iff_getElem?.mp hq
  exact ⟨s', _, _, _, hrun, hread,
    mem_renderProps.mpr ⟨j, q, hj, by rw [hname, hvalue, renderValue_of_pin hpin]⟩⟩

/-- What a sole pin says: of the entry's descriptors that apply and show the pin's name, there is one, and it is the pinned
one. -/
theorem pinSole_spec {m : Memory} {pin : Pin} (h : pinSole m pin = true) :
    ∃ e is i, catRead m (frameId pin.frame) = some e ∧ entryInstrs m e = some is ∧
      i = pin.shape i.filter i.name ∧
      ∀ j, (j ∈ applicable (frameMt pin.frame) is ∧ m.nameAt j.name = pin.name) ↔ j = i := by
  unfold pinSole at h
  split at h
  · cases h
  rename_i e he
  split at h
  · cases h
  rename_i is his
  split at h
  · rename_i i hi
    refine ⟨e, is, i, he, his, beq_iff_eq.mp h, fun j => ?_⟩
    rw [← List.mem_singleton (a := j), ← hi, mem_applicable, List.mem_filter, Bool.and_eq_true, beq_iff_eq, and_assoc]
  · cases h

/-- Settles O56: a property shown under the pin's name is the conversion of a descriptor that applies and has the name, so of
the pinned one; and the pinned one's name is among the names of the fold. -/
theorem sourceDescriptorsGiveSourceValues : Obligations.SourceDescriptorsGiveSourceValues := by
  unfold Obligations.SourceDescriptorsGiveSourceValues
  intro s pin rest h hs hpin hsole hp
  obtain ⟨e, is, i, he, his, hshape, honly⟩ := pinSole_spec hsole
  have hf := decodeFrame_of_present s.params he
  rw [his, Option.map_some, assemble_eq_insertAll] at hf
  obtain ⟨s', hrun, hread⟩ := host_reads_decoded h hs hp hf
  have hpinned : ∀ q ∈ insertAll s.params (framePayload pin.frame) (applicable (frameMt pin.frame) is),
      s.rom.nameAt q.name = pin.name → q.value = pin.value := by
    intro q hq hname
    obtain ⟨j, hj, rfl⟩ := mem_insertAll _ _ _ hq
    obtain rfl := (honly j).mp ⟨hj, hname⟩
    rw [hshape, instrValue_of_pin hpin]
  refine ⟨s', _, _, _, hrun, hread, fun shown => ?_⟩
  rw [mem_renderProps]
  constructor
  · rintro ⟨j, q, hq, hx⟩
    obtain ⟨hname, rfl⟩ := Prod.mk.inj hx
    rw [hpinned q (List.mem_of_getElem? hq) hname.symm, renderValue_of_pin hpin]
  · rintro rfl
    obtain ⟨happ, hname⟩ := (honly i).mpr rfl
    obtain ⟨q, hq, hqi⟩ := List.mem_map.mp ((mem_namesOf_insertAll _ _ _ _).mpr (List.mem_map_of_mem happ))
    obtain ⟨j, hj⟩ := List.mem_iff_getElem?.mp hq
    have hqname : s.rom.nameAt q.name = pin.name := hqi ▸ hname
    exact ⟨j, q, hj, by rw [hqname, hpinned q hq hqname, renderValue_of_pin hpin]⟩

end Sys2Proof.Machine

/-! PROOFS. The ten converters (43_converters.md R141-R154): what the visit of a descriptor that applies delivers, and the
exact F8.8 rounding. -/

namespace Sys2Proof.Machine

/-! ## The visit of a descriptor that applies (R112, R115) -/

section Delivery
variable {f : Filter} {s : State} {t : Txn}

theorem withTxn_visitByte (h : Half) (name : NameIdx) (conv : Bits8 → Value) (ht : s.txn = some t)
    (hf : f = none ∨ f = some (t.frame.extractLsb' 28 3)) : withTxn s (visitByte f h name conv) =
      .next (s.delivered t name (.byte (t.halfByte h)) (conv (t.halfByte h))) := by
  rw [withTxn, ht]
  simp only [visitByte_applies h name conv (applies_mt hf)]
  rfl

theorem withTxn_visitWord (name : NameIdx) (conv : Bits16 → Value) (ht : s.txn = some t)
    (hf : f = none ∨ f = some (t.frame.extractLsb' 28 3)) : withTxn s (visitWord f name conv) =
      .next (s.delivered t name (.word t.fullWord) (conv t.fullWord)) := by
  rw [withTxn, ht]
  simp only [visitWord_applies name conv (applies_mt hf)]
  rfl

end Delivery

/-! ## Vectors as numbers (R8) -/

/-- `sext_N` by the top bit. -/
theorem sext_eq_ite {n : Nat} (v : BitVec n) :
    sext v = if v.getLsbD (n - 1) then (v.toNat : Int) - 2 ^ n else v.toNat := by
  rw [sext, zext, BitVec.msb_eq_getLsbD_last]
  split_ifs
  · rfl
  · exact Int.sub_zero _

/-! ## F8.8 (R146-R148) -/

/-- Bit 15 is the sign bit of the payload. -/
theorem getLsbD_15_eq_decide (v : Bits16) : v.getLsbD 15 = decide (32768 ≤ v.toNat) := by
  rw [← BitVec.msb_eq_getLsbD_last, BitVec.msb_eq_decide]

theorem f88Numerator_of_sign_clear (mode : F88NegMode) {v : Bits16} (h : v.getLsbD 15 = false) :
    f88Numerator mode v = v.toNat := by
  have hmsb : v.msb = false := (BitVec.msb_eq_getLsbD_last v).trans h
  simp only [f88Numerator, hmsb, Bool.false_eq_true, if_false, zext, highByte_toNat, lowByte_toNat]
  omega

theorem f88Numerator_of_sign_twosComplement {v : Bits16} (h : v.getLsbD 15 = true) :
    f88Numerator .twosComplement v = (v.toNat : Int) - 65536 := by
  have hmsb : v.msb = true := (BitVec.msb_eq_getLsbD_last v).trans h
  rw [f88Numerator, if_pos hmsb, sext_eq_ite, if_pos h]
  rfl

/-- The high byte inverted, the low byte as it is (R147). -/
theorem f88Numerator_of_sign_invertHbPlusFraction {v : Bits16} (h : v.getLsbD 15 = true) :
    f88Numerator .invertHbPlusFraction v = -((255 - (v.toNat : Int) / 256) * 256 + (v.toNat : Int) % 256) := by
  have hmsb : v.msb = true := (BitVec.msb_eq_getLsbD_last v).trans h
  have hhigh := (highByte v).isLt
  rw [highByte_toNat] at hhigh
  rw [f88Numerator, if_pos hmsb]
  simp only [zext, BitVec.toNat_not, highByte_toNat, lowByte_toNat]
  omega

/-- The model's integer over 256 is the exact value `x` of R146 and R147. -/
theorem f88Exact_eq (mode : F88NegMode) (v : Bits16) : f88Exact mode v = (f88Numerator mode v : Rat) / 256 := by
  have hmsb : v.msb = v.getLsbD 15 := BitVec.msb_eq_getLsbD_last v
  rw [f88Exact.eq_def, f88Numerator.eq_def, hmsb]
  split_ifs
  · cases mode with
    | twosComplement => rw [sext_eq_toInt]
    | invertHbPlusFraction => simp only [zext, highByte, lowByte]; push_cast; ring
  · simp only [zext, highByte, lowByte]; push_cast; ring

/-- The floor of `100 * x + 1/2` for `x = z / 256`. -/
theorem floor_centi (z : Int) : ⌊100 * ((z : Rat) / 256) + 1 / 2⌋ = (100 * z + 128) / 256 := by
  have key : 100 * ((z : Rat) / 256) + 1 / 2 = ((100 * z + 128 : Int) : Rat) / (256 : Nat) := by push_cast; ring
  rw [key, Rat.floor_intCast_div_natCast]
  rfl

/-- R148 on rationals is the model's rounding on integers. -/
theorem f88Centi_eq (tie : F88Tie) (z : Int) : f88Centi tie ((z : Rat) / 256) = roundCenti tie z := by
  cases tie with
  | halfAwayFromZero =>
    have habs : |100 * ((z : Rat) / 256)| = 100 * (((z.natAbs : Int) : Rat) / 256) := by
      rw [abs_mul, abs_div, Int.natCast_natAbs, Int.cast_abs]; norm_num
    have hsign : SignType.sign (100 * ((z : Rat) / 256)) = SignType.sign z := by
      have hscale : 100 * ((z : Rat) / 256) = (z : Rat) * (25 / 64) := by ring
      rw [hscale, sign_mul, sign_intCast, sign_pos (a := (25 / 64 : Rat)) (by norm_num), mul_one]
    rw [f88Centi, roundCenti, habs, floor_centi, hsign, Int.sign_eq_sign]
  | halfTowardPosInf => exact floor_centi z

theorem convF88_eq (mode : F88NegMode) (tie : F88Tie) (v : Bits16) :
    convF88 mode tie v = .fix2 (f88Centi tie (f88Exact mode v)) := by
  rw [convF88, f88Exact_eq, f88Centi_eq]

/-- Settles O30: the exact rational value over 256 is the model's numerator, whose rounding has the range of R148. -/
theorem fixedPointDelivers : Obligations.FixedPointDelivers := by
  unfold Obligations.FixedPointDelivers
  intro f name s t ht hf
  obtain ⟨hlo, hhi⟩ := f88Numerator_bounds s.params.negMode t.fullWord
  refine ⟨?_, ?_⟩
  · rw [exec, execF88, withTxn_visitWord name _ ht hf, convF88_eq]
  · rw [f88Exact_eq, f88Centi_eq]
    exact roundCenti_bounds _ hlo hhi

/-- Bounds of the numerator, divided by 256, are bounds of the exact value. -/
theorem f88Exact_bounds {mode : F88NegMode} {v : Bits16} {a b : Int} (ha : a ≤ f88Numerator mode v)
    (hb : f88Numerator mode v ≤ b) : (a : Rat) / 256 ≤ f88Exact mode v ∧ f88Exact mode v ≤ (b : Rat) / 256 := by
  rw [f88Exact_eq]
  exact ⟨div_le_div_of_nonneg_right (Int.cast_le.mpr ha) (by decide),
    div_le_div_of_nonneg_right (Int.cast_le.mpr hb) (by decide)⟩

/-- Settles O45: the ranges of the numerator, divided by 256. -/
theorem negativeFixedPointRange : Obligations.NegativeFixedPointRange := by
  unfold Obligations.NegativeFixedPointRange
  intro v h
  have hneg : 32768 ≤ v.toNat := by rwa [getLsbD_15_eq_decide, decide_eq_true_eq] at h
  have hv := v.isLt
  have htwos : -32768 ≤ f88Numerator .twosComplement v ∧ f88Numerator .twosComplement v ≤ -1 := by
    rw [f88Numerator_of_sign_twosComplement h]; omega
  have hinv : -32767 ≤ f88Numerator .invertHbPlusFraction v ∧ f88Numerator .invertHbPlusFraction v ≤ 0 := by
    rw [f88Numerator_of_sign_invertHbPlusFraction h]; omega
  obtain ⟨htlo, hthi⟩ := f88Exact_bounds htwos.1 htwos.2
  obtain ⟨hilo, hihi⟩ := f88Exact_bounds hinv.1 hinv.2
  norm_num at htlo hthi hilo hihi ⊢
  exact ⟨⟨htlo, hthi⟩, hilo, hihi⟩

/-- The tie modes part at a negative half: `100 * z / 256` is halfway between two integers exactly where `z mod 64 = 32`. -/
theorem roundCenti_ne_iff (z : Int) :
    roundCenti .halfAwayFromZero z ≠ roundCenti .halfTowardPosInf z ↔ z < 0 ∧ z % 64 = 32 := by
  simp only [roundCenti]
  obtain hneg | rfl | hpos := lt_trichotomy z 0
  · have hhalf : z % 64 = 32 ↔ (100 * z + 128) % 256 = 0 := by omega
    rw [Int.sign_eq_neg_one_of_neg hneg, hhalf]
    omega
  · decide
  · rw [Int.sign_eq_one_of_pos hpos]; omega

/-- A numerator is a negative half exactly where the sign bit is set and the low byte is a half: neither mode changes the
low byte but for its sign, and no half is 0. -/
theorem f88Numerator_negative_tie_iff (mode : F88NegMode) (v : Bits16) :
    (f88Numerator mode v < 0 ∧ f88Numerator mode v % 64 = 32) ↔ v.getLsbD 15 = true ∧ v.toNat % 64 = 32 := by
  have hv := v.isLt
  cases h : v.getLsbD 15 with
  | false =>
    rw [f88Numerator_of_sign_clear mode h]
    simp
  | true =>
    have hbit : 32768 ≤ v.toNat := by rwa [getLsbD_15_eq_decide, decide_eq_true_eq] at h
    rw [eq_self, true_and]
    cases mode with
    | twosComplement => rw [f88Numerator_of_sign_twosComplement h]; omega
    | invertHbPlusFraction => rw [f88Numerator_of_sign_invertHbPlusFraction h]; omega

theorem lowByte_tie_iff (v : Bits16) : v.toNat % 64 = 32 ↔
    (lowByte v = 0x20#8 ∨ lowByte v = 0x60#8 ∨ lowByte v = 0xA0#8 ∨ lowByte v = 0xE0#8) := by
  simp only [← BitVec.toNat_inj, lowByte_toNat, BitVec.toNat_ofNat]
  omega

/-- Settles O46: the modes part at the negative halves of the numerator. -/
theorem tieModesDifferOnNegativeTies : Obligations.TieModesDifferOnNegativeTies := by
  unfold Obligations.TieModesDifferOnNegativeTies
  intro mode v
  rw [← lowByte_tie_iff, ← f88Numerator_negative_tie_iff mode, ← roundCenti_ne_iff, convF88, convF88, Ne,
    Value.fix2.injEq]

/-! ## The packed kinds (R149-R152) -/

theorem dtDay_toNat (v : Bits16) : (dtDay v).toNat = v.toNat / 8192 := by
  have := v.isLt
  simp only [dtDay, BitVec.extractLsb'_toNat, Nat.shiftRight_eq_div_pow]
  omega

theorem dtHour_toNat (v : Bits16) : (dtHour v).toNat = v.toNat / 256 % 32 := by
  simp only [dtHour, BitVec.extractLsb'_toNat, Nat.shiftRight_eq_div_pow]

theorem dtMinute_toNat (v : Bits16) : (dtMinute v).toNat = v.toNat % 256 := by
  simp only [dtMinute, BitVec.extractLsb'_toNat, Nat.shiftRight_zero]

theorem dtValid_iff (hour : BitVec 5) (minute : Bits8) :
    dtValid hour minute = true ↔ hour.toNat ≤ 23 ∧ minute.toNat ≤ 59 := by
  rw [dtValid, Bool.and_eq_true, decide_eq_true_eq, decide_eq_true_eq]

theorem dateValid_iff (month day : Bits8) :
    dateValid month day = true ↔ month.toNat ≤ 12 ∧ 1 ≤ day.toNat ∧ day.toNat ≤ 31 := by
  simp only [dateValid, Bool.and_eq_true, decide_eq_true_eq, and_assoc]

/-- Settles O31: the fields are the slices of R149, the guard is `DT_VALID` written out. -/
theorem daytimeDelivers : Obligations.DaytimeDelivers := by
  unfold Obligations.DaytimeDelivers
  intro f name s t ht hf
  refine ⟨dtDay t.fullWord, dtHour t.fullWord, dtMinute t.fullWord, dtDay_toNat _, dtHour_toNat _, dtMinute_toNat _, ?_⟩
  simp only [exec, execDaytime, withTxn_visitWord name _ ht hf, convDaytime, dtValid_iff, zext]

/-- DATE keeps the pair where it is valid or `DT_GUARD` is ALWAYS_RENDER (R152). -/
theorem convDate_eq (guard : DtGuard) (v : Bits16) : convDate guard v =
    if guard = .alwaysRender ∨ dateValid (highByte v) (lowByte v) = true then .date (highByte v) (lowByte v)
    else .int (zext v) := by
  rw [convDate, ← ite_or]
  simp only [or_comm]

/-- Settles O32: month and day are the bytes of the payload, the guard is `DATE_VALID` written out. -/
theorem dateDelivers : Obligations.DateDelivers := by
  unfold Obligations.DateDelivers
  intro f name s t ht hf
  refine ⟨highByte t.fullWord, lowByte t.fullWord, highByte_toNat _, lowByte_toNat _, ?_⟩
  simp only [exec, execDate, withTxn_visitWord name _ ht hf, convDate_eq, dateValid_iff, zext]

/-! ## VENDOR_SVC (R154) -/

theorem highByte_eq_zero_iff (v : Bits16) : highByte v = 0#8 ↔ v.toNat / 256 = 0 := by
  rw [← BitVec.toNat_inj, highByte_toNat]; rfl

theorem convSvc_eq (v : Bits16) : convSvc v = .service
    (if v.toNat / 256 = 0 then .none
     else if v.toNat % 16 = 1 then .typeA
     else if v.toNat % 16 = 2 then .typeB
     else if v.toNat % 16 = 3 then .typeC
     else .unknown) := by
  have hnibble : (v.extractLsb' 0 4).toNat = v.toNat % 16 := by
    rw [BitVec.extractLsb'_toNat, Nat.shiftRight_zero]
  rw [convSvc, hnibble]
  simp only [highByte_eq_zero_iff]
  by_cases hhigh : v.toNat / 256 = 0
  · rw [if_pos hhigh, if_pos hhigh]
  · rw [if_neg hhigh, if_neg hhigh]
    match v.toNat % 16 with
    | 0 | 1 | 2 | 3 => rfl
    | n + 4 => simp

/-- Settles O34: the high byte first, then the low nibble. -/
theorem serviceCodeDelivers : Obligations.ServiceCodeDelivers := by
  unfold Obligations.ServiceCodeDelivers
  intro f name s t ht hf
  rw [exec, execSvc, withTxn_visitWord name _ ht hf, convSvc_eq]

/-! ## The byte kinds and the plain word kinds (R141-R145, R153) -/

/-- Settles O25: the bit select is bit BIT of the half. -/
theorem flagDeliversBit : Obligations.FlagDeliversBit := by
  unfold Obligations.FlagDeliversBit
  intro f h bit name s t ht hf
  rw [exec, execFlag, withTxn_visitByte h name _ ht hf, convFlag, bitSel_eq]

/-- Settles O26: U8 is `zext_8` of the half. -/
theorem unsignedByteDelivers : Obligations.UnsignedByteDelivers := by
  unfold Obligations.UnsignedByteDelivers
  intro f h name s t ht hf
  rw [exec, execU8, withTxn_visitByte h name _ ht hf, convU8, zext]

/-- Settles O27: `sext_8` by bit 7 of the half. -/
theorem signedByteDelivers : Obligations.SignedByteDelivers := by
  unfold Obligations.SignedByteDelivers
  intro f h name s t ht hf
  rw [exec, execS8, withTxn_visitByte h name _ ht hf, convS8, sext_eq_ite]
  rfl

/-- Settles O28: U16 is `zext_16` of the payload. -/
theorem unsignedWordDelivers : Obligations.UnsignedWordDelivers := by
  unfold Obligations.UnsignedWordDelivers
  intro f name s t ht hf
  rw [exec, execU16, withTxn_visitWord name _ ht hf, convU16, zext]

/-- Settles O29: `sext_16` by bit 15 of the payload. -/
theorem signedWordDelivers : Obligations.SignedWordDelivers := by
  unfold Obligations.SignedWordDelivers
  intro f name s t ht hf
  rw [exec, execS16, withTxn_visitWord name _ ht hf, convS16, sext_eq_ite]
  rfl

/-- Settles O33: YEAR is `zext_16` of the payload, with no offset. -/
theorem yearDelivers : Obligations.YearDelivers := by
  unfold Obligations.YearDelivers
  intro f name s t ht hf
  rw [exec, execYear, withTxn_visitWord name _ ht hf, convYear, zext]

end Sys2Proof.Machine

/-! PROOFS. The result port and the host's rendering (44_output_rendering.md): the bits of a value and of a property slot
(R180, R181), the fields of the port, and what the host sees (R182-R187). -/

namespace Sys2Proof.Machine

/-- Settles O41: the range of each converter, by the instruction. -/
theorem convertersStayInRange : Obligations.ConvertersStayInRange := by
  unfold Obligations.ConvertersStayInRange
  exact inRange_instrValue

/-! ## The data bits of a value (R180) -/

theorem inRange_int_iff (z : Int) : (Value.int z).inRange = true ↔ -32768 ≤ z ∧ z ≤ 65535 := by
  simp only [Value.inRange, Bool.and_eq_true, decide_eq_true_eq]

theorem inRange_fix2_iff (c : Int) : (Value.fix2 c).inRange = true ↔ -12800 ≤ c ∧ c ≤ 12800 := by
  simp only [Value.inRange, Bool.and_eq_true, decide_eq_true_eq]

theorem toNat_vdata_bool (b : Bool) : (Value.bool b).vdata.toNat = if b then 1 else 0 := by
  cases b <;> rfl

/-- 17 bits of two's complement hold every integer of R180's range. -/
theorem toInt_vdata_int {z : Int} (h : (Value.int z).inRange = true) : (Value.int z).vdata.toInt = z := by
  obtain ⟨hlo, hhi⟩ := (inRange_int_iff z).mp h
  exact BitVec.toInt_ofInt_eq_self (by decide) (by omega) (by omega)

theorem toInt_vdata_fix2 {c : Int} (h : (Value.fix2 c).inRange = true) : (Value.fix2 c).vdata.toInt = c := by
  obtain ⟨hlo, hhi⟩ := (inRange_fix2_iff c).mp h
  exact BitVec.toInt_ofInt_eq_self (by decide) (by omega) (by omega)

/-- A concatenation as a number: the high part above the low part's width. -/
theorem toNat_append_eq_add {n k : Nat} (x : BitVec n) (y : BitVec k) :
    (x ++ y).toNat = x.toNat * 2 ^ k + y.toNat := by
  rw [BitVec.toNat_append, ← Nat.shiftLeft_add_eq_or_of_lt y.isLt, Nat.shiftLeft_eq]

theorem vdata_daytime (d : BitVec 3) (h : BitVec 5) (mi : Bits8) :
    (Value.daytime d h mi).vdata = 0#1 ++ d ++ h ++ mi := by
  have hd := d.isLt
  have hh := h.isLt
  have hmi := mi.isLt
  apply BitVec.eq_of_toNat_eq
  simp only [Value.vdata, toNat_append_eq_add, BitVec.toNat_ofNat]
  omega

theorem vdata_date (mo d : Bits8) : (Value.date mo d).vdata = 0#1 ++ mo ++ d := by
  have hmo := mo.isLt
  have hd := d.isLt
  apply BitVec.eq_of_toNat_eq
  simp only [Value.vdata, toNat_append_eq_add, BitVec.toNat_ofNat]
  omega

/-! ## Reading a value back (R180) -/

theorem valueOfBits_daytime (d : BitVec 3) (h : BitVec 5) (mi : Bits8) :
    valueOfBits 3#3 (0#1 ++ d ++ h ++ mi) = some (.daytime d h mi) := by
  have hday : (0#1 ++ d ++ h ++ mi).extractLsb' 13 3 = d := by
    rw [BitVec.extractLsb'_append_eq_of_le (by decide), BitVec.extractLsb'_append_eq_of_le (by decide)]
    exact BitVec.extractLsb'_append_eq_right
  have hhour : (0#1 ++ d ++ h ++ mi).extractLsb' 8 5 = h := by
    rw [BitVec.extractLsb'_append_eq_of_le (by decide)]
    exact BitVec.extractLsb'_append_eq_right
  have hminute : (0#1 ++ d ++ h ++ mi).extractLsb' 0 8 = mi := BitVec.extractLsb'_append_eq_right
  show some (Value.daytime _ _ _) = _
  rw [hday, hhour, hminute]

theorem valueOfBits_date (mo d : Bits8) : valueOfBits 4#3 (0#1 ++ mo ++ d) = some (.date mo d) := by
  have hmonth : (0#1 ++ mo ++ d).extractLsb' 8 8 = mo := by
    rw [BitVec.extractLsb'_append_eq_of_le (by decide)]
    exact BitVec.extractLsb'_append_eq_right
  have hday : (0#1 ++ mo ++ d).extractLsb' 0 8 = d := BitVec.extractLsb'_append_eq_right
  show some (Value.date _ _) = _
  rw [hmonth, hday]

/-- The port carries every value in range exactly. -/
theorem valueOfBits_vtag_vdata {v : Value} (h : v.inRange = true) : valueOfBits v.vtag v.vdata = some v := by
  cases v with
  | bool b => cases b <;> rfl
  | int z => exact congrArg (some ∘ Value.int) (toInt_vdata_int h)
  | fix2 c => exact congrArg (some ∘ Value.fix2) (toInt_vdata_fix2 h)
  | daytime d hour mi => rw [vdata_daytime]; exact valueOfBits_daytime d hour mi
  | date mo d => rw [vdata_date]; exact valueOfBits_date mo d
  | service s => cases s <;> rfl

/-! ## The fields of a property slot (R181) -/

section Slot
variable (p : Property)

theorem bits_pname : p.bits.extractLsb' 20 10 = p.name := by
  rw [Property.bits, BitVec.extractLsb'_append_eq_of_le (by decide)]
  exact BitVec.extractLsb'_append_eq_left

theorem bits_vtag : p.bits.extractLsb' 17 3 = p.value.vtag := by
  rw [Property.bits, BitVec.extractLsb'_append_eq_of_le (by decide)]
  exact BitVec.extractLsb'_append_eq_right

theorem bits_vdata : p.bits.extractLsb' 0 17 = p.value.vdata :=
  BitVec.extractLsb'_append_eq_right

end Slot

/-- Settles O42: tag and data by the constructor, slot fields by their places, and the value read back. -/
theorem portCarriesValue : Obligations.PortCarriesValue := by
  unfold Obligations.PortCarriesValue
  exact ⟨fun b => ⟨rfl, toNat_vdata_bool b⟩, fun _ h => ⟨rfl, toInt_vdata_int h⟩, fun _ h => ⟨rfl, toInt_vdata_fix2 h⟩,
    fun d h mi => ⟨rfl, vdata_daytime d h mi⟩, fun mo d => ⟨rfl, vdata_date mo d⟩, fun _ => rfl, rfl,
    fun p => ⟨bits_pname p, bits_vtag p, bits_vdata p⟩, fun _ h => valueOfBits_vtag_vdata h⟩

/-! ## The fields of the port (R181) -/

section Port
variable (mt : MT3) (id : DataId) (d : BitVec 10) (ps : List Property)

@[simp] theorem portOf_malformed : portOf .malformed = ⟨2#2, none, none, none, 0, []⟩ := rfl
@[simp] theorem portOf_unknownId : portOf (.unknownId mt id) = ⟨1#2, some mt, some id, none, 0, []⟩ := rfl
@[simp] theorem portOf_decoded : portOf (.decoded mt id d ps) =
    ⟨0#2, some mt, some id, some d, BitVec.ofNat 5 ps.length, ps.map Property.bits⟩ := rfl

end Port

/-- `PCOUNT` does not wrap in an accepted catalog: there is at most one property for each of the `N` descriptors, and `N`
has 5 bits itself. -/
theorem pcount_of_decodeFrame_decoded {c : Params} {m : Memory} (hl : loadCheck c m = none) {f : FrameIn} {mt : MT3}
    {id : DataId} {d : BitVec 10} {ps : List Property} (h : decodeFrame c m f = some (.decoded mt id d ps)) :
    (portOf (.decoded mt id d ps)).pcount.toNat = ps.length := by
  obtain ⟨e, -, -, hlen, -, -⟩ := decodeFrame_decoded_bounded hl h
  rw [portOf_decoded, BitVec.toNat_ofNat]
  exact Nat.mod_eq_of_lt (hlen.trans_lt e.n.isLt)

/-- Settles O43, by the three outcomes of DECODE, `MT` and `ID` read as bits; only a DECODED one has slots to count. -/
theorem portCountsProperties : Obligations.PortCountsProperties := by
  unfold Obligations.PortCountsProperties
  intro c m f r hl h
  rcases decodeFrame_cases h with ⟨rfl, rfl⟩ | ⟨w, rfl, hc, rfl⟩ | ⟨w, e, props, rfl, hc, rfl⟩
  · simp
  · rw [frameMt_eq]
    rw [frameId] at hc ⊢
    simp [hc]
  · have hcount := pcount_of_decodeFrame_decoded hl h
    rw [frameMt_eq, frameId] at hcount ⊢
    rw [frameId] at hc
    refine ⟨rfl, nofun, ?_, by simp, by simp, hcount.trans (List.length_map _).symm, ?_, fun hs => absurd rfl hs⟩
    · rintro _ ⟨⟩
      exact ⟨rfl, rfl, by rw [hc]; rfl⟩
    · rintro _ _ _ _ ⟨⟩
      rfl

/-! ## The rendered values (R183-R186) -/

theorem monthName_of_lt (draw : Nat) {mo : Bits8} (h : mo.toNat < 13) :
    monthName draw mo = monthNames.getD mo.toNat "" := by
  have hmo : monthNames[mo.toNat]? = some monthNames[mo.toNat] := List.getElem?_eq_getElem h
  rw [List.getD_eq_getElem?_getD, monthName, hmo]
  rfl

theorem monthName_of_ge (draw : Nat) {mo : Bits8} (h : 13 ≤ mo.toNat) :
    monthName draw mo = Config.unspecifiedMonthName draw mo := by
  have hmo : monthNames[mo.toNat]? = none := List.getElem?_eq_none h
  rw [monthName, hmo]

theorem renderValue_date (draw : Nat) (mo d : Bits8) :
    renderValue draw (.date mo d) = .string (monthName draw mo ++ ", " ++ Nat.repr d.toNat) := rfl

/-- Settles O47: a DATE by whether its month is in the table, every other value as RENDER_VALUE writes it. -/
theorem renderedValues : Obligations.RenderedValues := by
  unfold Obligations.RenderedValues
  refine fun draw => ⟨fun _ => rfl, fun _ => rfl, fun _ => rfl, fun _ _ _ => rfl, fun mo d h => ?_, fun mo d h => ?_,
    rfl, rfl, rfl, rfl, rfl⟩
  · rw [renderValue_date, monthName_of_ge draw h]
  · rw [renderValue_date, monthName_of_lt draw h]
    rfl

/-! ## The rendered results (R182, R187) -/

theorem msgTypeName_of_getElem? {mt : MT3} {s : String} (h : msgTypeNames[mt.toNat]? = some s) : msgTypeName mt = s := by
  rw [msgTypeName, List.getD_eq_getElem?_getD, h, Option.getD_some]

/-- The `j`-th rendered pair is the `j`-th property's, with draw `draw + j`. -/
theorem renderProps_eq_mapIdx (m : Memory) (props : List Property) : ∀ draw : Nat, renderProps m draw props =
    props.mapIdx fun j p => (m.nameAt p.name, renderValue (draw + j) p.value) := by
  induction props with
  | nil => exact fun _ => rfl
  | cons p rest ih =>
    intro draw
    simp only [renderProps, List.mapIdx_cons, ih, Nat.add_zero, Nat.add_assoc, Nat.add_comm 1]

theorem map_fst_renderProps (m : Memory) (draw : Nat) (props : List Property) :
    (renderProps m draw props).map Prod.fst = props.map fun p => m.nameAt p.name := by
  apply List.ext_getElem?
  intro j
  simp only [renderProps_eq_mapIdx, List.getElem?_map, List.getElem?_mapIdx, Option.map_map]
  rfl

theorem snd_getElem?_renderProps (m : Memory) (draw : Nat) {props : List Property} {j : Nat} {p : Property}
    (h : props[j]? = some p) :
    ((renderProps m draw props)[j]?).map Prod.snd = some (renderValue (draw + j) p.value) := by
  rw [renderProps_eq_mapIdx, List.getElem?_mapIdx, h]
  rfl

/-- Settles O48, by the three outcomes; the properties of a DECODED one by their places. -/
theorem renderedResults : Obligations.RenderedResults := by
  unfold Obligations.RenderedResults
  refine fun m draw => ⟨rfl, fun mt messageType hmt => ?_⟩
  obtain rfl : msgTypeName mt = messageType := msgTypeName_of_getElem? hmt
  exact ⟨fun _ => rfl, fun _ descr props => ⟨renderProps m draw props, rfl, map_fst_renderProps m draw props,
    fun _ _ h => snd_getElem?_renderProps m draw h⟩⟩

end Sys2Proof.Machine

/-! PROOFS. The errors of the block are result values (60_exceptions.md R155, R200): in operation every step goes on. -/

namespace Sys2Proof.Machine

/-- A descriptor that the fetch reads is run, and no instruction stops while a transaction is in progress. -/
theorem step_of_fetched {s : State} {t : Txn} {i : Instr} (hb : s.boot = .inOperation) (ht : s.txn = some t)
    (hk : t.k < t.entry.n.toNat) (hi : fetchDesc s.rom t = .ok i) :
    step s = .next { s with txn := some (visitInstr s.params i t) } := by
  rw [step_visit hb ht hk, hi]
  exact exec_of_txn i ht

/-- Settles O51, by what the step does in operation: it takes the port, visits a descriptor, or closes the transaction. Only
the visit could stop, and the invariant's sound transaction has its descriptor in the accepted catalog. -/
theorem operationNeverStops : Obligations.OperationNeverStops := by
  unfold Obligations.OperationNeverStops
  intro s h hb
  cases ht : s.txn with
  | none => exact ⟨_, step_accept hb ht⟩
  | some t =>
    by_cases hk : t.k < t.entry.n.toNat
    · obtain ⟨i, hi, -⟩ := (h.txn t ht).visit hk
      exact ⟨_, step_of_fetched hb ht hk hi⟩
    · exact ⟨_, step_finish hb ht hk⟩

end Sys2Proof.Machine

/-! PROOFS. Reset, the boot order and the hazards (70_reset_and_hazards.md): the invariant at reset and over the host's
actions (R230, R232), the load check as the first step (R233), and `LATENCY`, which no step reads (R235). -/

namespace Sys2Proof.Machine

/-! ## Reset and the host's actions (R230, R232) -/

/-- Settles O1, by reading the fields of the reset state. -/
theorem resetStateHasNoResult : Obligations.ResetStateHasNoResult := by
  unfold Obligations.ResetStateHasNoResult
  exact ⟨rfl, rfl, rfl, rfl, rfl, rfl, rfl⟩

/-- Settles O2: the empty ROM is canonical and nothing is in progress. -/
theorem resetSatisfiesInv : Obligations.ResetSatisfiesInv := inv_reset

/-- Settles O50, by the cases of the action. -/
theorem hostActionsKeepInv : Obligations.HostActionsKeepInv := by
  unfold Obligations.HostActionsKeepInv
  exact fun _ _ h ha => h.hostAction ha

/-! ## The load check as the first step (R233, R203) -/

theorem bootStep_of_accepted {s : State} (h : loadCheck s.params s.rom = none) :
    bootStep s = .next { s with boot := .inOperation } := by
  simp only [bootStep, h]

theorem bootStep_of_failed {s : State} {e : LoadError} (h : loadCheck s.params s.rom = some e) :
    bootStep s = .refused (.catalogRefused e) := by
  simp only [bootStep, h]

/-- Settles O4: before operation the step is the load check, and it has these two outcomes. -/
theorem bootStepRunsLoadCheck : Obligations.BootStepRunsLoadCheck := by
  unfold Obligations.BootStepRunsLoadCheck
  intro s hb
  rw [step_boot hb]
  exact ⟨bootStep_of_accepted, fun _ => bootStep_of_failed⟩

/-! ## What reset leaves (R230, I15) -/

theorem acceptFrame_of_empty {s : State} (hp : s.port = []) : acceptFrame s = s := by
  simp only [acceptFrame, hp]

/-- A state that steps to itself is where every run from it ends. -/
theorem runSteps_of_step_self {s : State} (h : step s = .next s) : ∀ n, runSteps n s = .next s
  | 0 => runSteps_zero s
  | n + 1 => (runSteps_succ_of_next h n).trans (runSteps_of_step_self h n)

/-- In operation a block that was reset waits: the frames it had not finished are gone. -/
theorem step_applyReset {s : State} (hb : s.boot = .inOperation) : step (applyReset s) = .next (applyReset s) := by
  rw [step_accept (s := applyReset s) hb (applyReset_txn s), acceptFrame_of_empty (applyReset_port s)]

/-- Frames presented after a reset find the invariant. -/
theorem Inv.applyReset_presented {s : State} (h : Inv s) (fs : List FrameIn) : Inv { applyReset s with port := fs } :=
  inv_of_quiet h.canonical h.checked rfl rfl

/-- Settles O3: a reset block waits in place, and with frames presented it is a ready state of the invariant with the
catalog and parameters it had, so the transaction of the first frame gives DECODE's result. -/
theorem resetChangesNoLaterResult : Obligations.ResetChangesNoLaterResult := by
  unfold Obligations.ResetChangesNoLaterResult
  intro s
  refine ⟨applyReset_rom s, applyReset_params s, applyReset_txn s, applyReset_port s, applyReset_output s, ?_, ?_⟩
  · exact fun hb => runSteps_of_step_self (step_applyReset hb)
  · exact fun h hb f rest => runSteps_transaction (h.applyReset_presented (f :: rest)) ⟨hb, rfl⟩ rfl

/-! ## `LATENCY` (R235): no rule reads it, so a step commutes with setting it -/

/-- `g` on the next state of an outcome; a stop stays what it is. -/
def mapNext (g : State → State) : Host.Outcome State Fault Refusal → Host.Outcome State Fault Refusal
  | .next s => .next (g s)
  | .fault r => .fault r
  | .refused r => .refused r

section Latency
variable (s : State) (l : Nat)

theorem loadCheck_withLatency (m : Memory) : loadCheck (s.withLatency l).params m = loadCheck s.params m := rfl

theorem instrValue_withLatency (p : Bits16) (i : Instr) :
    instrValue (s.withLatency l).params p i = instrValue s.params p i := by
  cases i <;> rfl

theorem visitInstr_withLatency (i : Instr) (t : Txn) :
    visitInstr (s.withLatency l).params i t = visitInstr s.params i t := by
  rw [visitInstr, instrValue_withLatency, ← visitInstr]

theorem bootStep_withLatency : bootStep (s.withLatency l) = mapNext (·.withLatency l) (bootStep s) := by
  have hl := loadCheck_withLatency s l s.rom
  cases hc : loadCheck s.params s.rom with
  | none =>
    rw [bootStep_of_accepted hc, bootStep_of_accepted (hl.trans hc)]
    rfl
  | some e =>
    rw [bootStep_of_failed hc, bootStep_of_failed (hl.trans hc)]
    rfl

theorem acceptFrame_withLatency : acceptFrame (s.withLatency l) = (acceptFrame s).withLatency l := by
  rcases acceptFrame_cases s with ⟨hp, he⟩ | ⟨rest, hp, he⟩ | ⟨w, rest, hp, hc, he⟩ | ⟨w, rest, e, hp, hc, he⟩ <;> rw [he]
  · exact acceptFrame_of_empty hp
  · exact acceptFrame_of_invalid hp
  · exact acceptFrame_of_absent hp hc
  · exact acceptFrame_of_present hp hc

end Latency

/-- A descriptor that the fetch refuses stops the step. -/
theorem step_of_fetch_error {s : State} {t : Txn} {r : Refusal} (hb : s.boot = .inOperation) (ht : s.txn = some t)
    (hk : t.k < t.entry.n.toNat) (hf : fetchDesc s.rom t = .error r) : step s = .refused r := by
  rw [step_visit hb ht hk, hf]

/-- A step commutes with setting `LATENCY`, in each of the four things it can be. -/
theorem step_withLatency (s : State) (l : Nat) : step (s.withLatency l) = mapNext (·.withLatency l) (step s) := by
  cases hb : s.boot with
  | checkPending =>
    rw [step_boot hb, step_boot (s := s.withLatency l) hb]
    exact bootStep_withLatency s l
  | inOperation =>
    cases ht : s.txn with
    | none =>
      rw [step_accept hb ht, step_accept (s := s.withLatency l) hb ht, acceptFrame_withLatency]
      rfl
    | some t =>
      by_cases hk : t.k < t.entry.n.toNat
      · cases hf : fetchDesc s.rom t with
        | error r =>
          rw [step_of_fetch_error hb ht hk hf, step_of_fetch_error (s := s.withLatency l) hb ht hk hf]
          rfl
        | ok i =>
          rw [step_of_fetched hb ht hk hf, step_of_fetched (s := s.withLatency l) hb ht hk hf, visitInstr_withLatency]
          rfl
      · rw [step_finish hb ht hk, step_finish (s := s.withLatency l) hb ht hk]
        rfl

/-- Settles O23: a step commutes with setting `LATENCY`, whether it goes on or is refused. -/
theorem latencyChangesNothing : Obligations.LatencyChangesNothing := by
  unfold Obligations.LatencyChangesNothing
  intro s l
  rw [step_withLatency]
  exact ⟨fun _ h => congrArg (mapNext (·.withLatency l)) h, fun _ h => congrArg (mapNext (·.withLatency l)) h⟩

end Sys2Proof.Machine
